-- ==== Sys2Proof/Word.lean ====
section
/-!
DEFINITION. Word.lean: the vectors of the Bit-Address Resolver. Every field and value is an unsigned bit vector, bit 0
the least significant (00_scope.md R11, R12). IDX_W is a configuration parameter (R5), so the widths that depend on it
are indexed by it.
-/

namespace Sys2Proof

/-- REQ_W = RSP_W = 2·IDX_W + 18 (30_encoding.md R33), written in the order of the fields C, B, A, op (R34). -/
abbrev reqW (idxW : Nat) : Nat := idxW + (idxW + (16 + 2))

/-- A request or a response: one vector of REQ_W bits (30_encoding.md R33). -/
abbrev Vec (idxW : Nat) : Type := BitVec (reqW idxW)

/-- The 16-bit unsigned operand of DERIVE, the key of a TABLE (00_scope.md R6, 30_encoding.md R36). -/
abbrev WordWidth : Type := BitVec 16

/-- The 8-bit unsigned shift, the value of a TABLE and an operand of RESOLVE (00_scope.md R6, 30_encoding.md R37). -/
abbrev Shift : Type := BitVec 8

/-- `ONES_N` of 00_scope.md section 5: the N-bit all-ones value. -/
def ones (n : Nat) : BitVec n := BitVec.allOnes n

/-- The fields of a request or of a response (30_encoding.md R34 and R41): `code` is a request's `op` or a response's
`status`; A, B and C follow it. -/
structure Fields (idxW : Nat) where
  code : BitVec 2
  a : BitVec 16
  b : BitVec idxW
  c : BitVec idxW
  deriving DecidableEq, Repr

/-- The two copies of the block (00_scope.md R3). A request carries no selector: the host picks the copy by driving its
port. -/
inductive InstanceId where
  | native
  | hash
  deriving DecidableEq, Repr

/-- HOST_BYTE_ORDER, the order in which a host that serialises a vector lays out its bytes (20_memory.md R25). -/
inductive ByteOrder where
  | leastFirst
  | mostFirst
  deriving DecidableEq, Repr, Inhabited

end Sys2Proof
end

