-- ==== Sys2Proof/Config.lean ====
section
/-!
DEFINITION. Config.lean: the elaboration parameters (00_scope.md section 3, R5 to R9, R25) and the free values: what the
spec leaves open is an opaque constant with no body, so that no proof can see it.
-/

namespace Sys2Proof

/-- TABLE : WordWidth ⇀ Shift (00_scope.md R6), as a list of widths with what the table says of each. A width listed with
`none`, or not listed, is no key. -/
abbrev Table : Type := List (WordWidth × Option Shift)

/-- The configuration record of a hardware (00_scope.md section 3). NATIVE_TABLE is fixed by R6 and needs no field.
10_state.md R15: these are elaboration constants; no step writes them. -/
structure Config where
  /-- IDX_W (R5). -/
  idxW : Nat
  /-- RESP_LATENCY, L (R9). -/
  respLatency : Nat
  /-- HASH_TABLE (R7). -/
  hashTable : Table
  /-- HOST_BYTE_ORDER (20_memory.md R25); nothing of the block reads it. -/
  hostByteOrder : ByteOrder
  deriving DecidableEq, Repr

/-- FREE VALUE (log 3): what the open HASH_TABLE says of a width other than 8 (00_scope.md R7; 93_implementation_defined.md
I1). -/
opaque Config.freeHashEntry : WordWidth → Option Shift

/-- FREE VALUE (log 4): the open HOST_BYTE_ORDER (93_implementation_defined.md I11). -/
opaque Config.freeByteOrder : ByteOrder

/-- FREE VALUE (log 2): the payload p_k of a pipeline stage that reset has left unspecified (10_state.md R22;
93_implementation_defined.md I9), for each copy, number of its past cycles and stage k. -/
opaque Config.freePayload (idxW : Nat) (inst : InstanceId) (cycle stage : Nat) : Vec idxW

/-- The widths other than 8 that a HASH_TABLE may key: the powers of two in 1..65535 (00_scope.md R8). -/
def openHashWidths : List WordWidth := [1, 2, 4, 16, 32, 64, 128, 256, 512, 1024, 2048, 4096, 8192, 16384, 32768]

/-- The open entry of HASH_TABLE at one width, kept only if it satisfies 00_scope.md R8(b). -/
def openHashEntry (idxW : Nat) (width : WordWidth) : Option Shift :=
  match Config.freeHashEntry width with
  | none => none
  | some shift => if shift.toNat ≤ idxW then some shift else none

/-- A HASH_TABLE with nothing chosen: 8 ↦ 4 as 00_scope.md R7 requires, and at every other admissible width whatever the
free entry says. Every table that R7 and R8 admit is one of these, for some value of the free entry. -/
def openHashTable (idxW : Nat) : Table :=
  (8, some 4) :: openHashWidths.map fun width => (width, openHashEntry idxW width)

/-- The configuration of State.reset: the spec's defaults IDX_W = 64 (R5) and RESP_LATENCY = 0 (R9), and the open
parameters left free. -/
def defaultConfig : Config where
  idxW := 64
  respLatency := 0
  hashTable := openHashTable 64
  hostByteOrder := Config.freeByteOrder

end Sys2Proof
end

