-- ==== Sys2Proof/Syntax.lean ====
section
/-!
DEFINITION. Syntax.lean: the two operations of opcode_table.json (00_scope.md R2), in the operands of their text forms
(30_encoding.md R43): unsigned literals, not yet checked against the width of the field that carries them. That check
is WellFormed.lean's; the bits are Decode.lean's.
-/

namespace Sys2Proof

/-- One constructor for each row of opcode_table.json. -/
inductive Instr where
  /-- Row DERIVE: `derive_addressing(word_width)` (40_derive.md R45). -/
  | derive (wordWidth : Nat)
  /-- Row RESOLVE: `resolve(bit_index, shift, mask)` (41_resolve.md R52). -/
  | resolve (shift mask bitIndex : Nat)
  deriving DecidableEq, Repr

end Sys2Proof
end

