-- ==== Sys2Proof/WellFormed.lean ====
section
/-!
DEFINITION. WellFormed.lean: which operands fit their fields (30_encoding.md R43), and which configurations define a block
(00_scope.md R5, R7, R8). Both are decidable.
-/

namespace Sys2Proof

/-- The assembler refuses a literal that does not fit its field (30_encoding.md R43): W ≥ 2^16, S ≥ 2^8, or I or
M ≥ 2^IDX_W. -/
def WellFormed (idxW : Nat) : Instr → Bool
  | .derive wordWidth => decide (wordWidth < 2 ^ 16)
  | .resolve shift mask bitIndex => decide (shift < 2 ^ 8 ∧ mask < 2 ^ idxW ∧ bitIndex < 2 ^ idxW)

/-- The power-of-two test of 00_scope.md R8(a), over the range of a 16-bit width. -/
def isPowerOfTwo (width : WordWidth) : Bool := (List.range 16).any fun k => width.toNat == 2 ^ k

/-- One entry of a TABLE meets 00_scope.md R8: a key is a power of two in 1..65535 (a) and its value is at most IDX_W (b). A
width that is no key meets it. -/
def entryWf (idxW : Nat) (entry : WordWidth × Option Shift) : Bool :=
  match entry.2 with
  | none => true
  | some shift => isPowerOfTwo entry.1 && decide (shift.toNat ≤ idxW)

/-- 00_scope.md R8 for every entry; and TABLE is a partial map (R6), so that no width is listed twice
(the list form is log 16's). -/
def tableWf (idxW : Nat) (table : Table) : Bool := table.all (entryWf idxW) && decide (table.map Prod.fst).Nodup

/-- A conforming configuration: 8 ≤ IDX_W ≤ 255 (00_scope.md R5), HASH_TABLE well-formed (R8) and HASH_TABLE(8) = 4 (R7).
RESP_LATENCY may be any number (R9). -/
def configWf (c : Config) : Bool :=
  decide (8 ≤ c.idxW ∧ c.idxW ≤ 255) && tableWf c.idxW c.hashTable && decide ((8, some 4) ∈ c.hashTable)

end Sys2Proof
end

