-- ==== Sys2Proof/Decode.lean ====
section
/-!
DEFINITION. Decode.lean: the request vector (30_encoding.md R33 to R40): its fields, the decoder and the encoder. A response
has the same field positions (R41), so packFields and unpackFields serve both.
-/

namespace Sys2Proof

/-- `op + A·2^2 + B·2^18 + C·2^(IDX_W+18)` (30_encoding.md R34). -/
def packFields {idxW : Nat} (f : Fields idxW) : Vec idxW := f.c ++ (f.b ++ (f.a ++ f.code))

/-- `req[1:0]`, `req[17:2]`, `req[IDX_W+17:18]` and `req[2·IDX_W+17:IDX_W+18]` (30_encoding.md R34). -/
def unpackFields {idxW : Nat} (v : Vec idxW) : Fields idxW where
  code := v.extractLsb' 0 2
  a := v.extractLsb' 2 16
  b := v.extractLsb' 18 idxW
  c := v.extractLsb' (idxW + 18) idxW

/-- The three cases (a), (b) and (c) in which a request is illegal (30_encoding.md R38). -/
inductive IllegalForm where
  /-- (a): op is 10 or 11. -/
  | reservedOp
  /-- (b): op is 00 and B or C is not zero. -/
  | deriveReservedNonzero
  /-- (c): op is 01 and `req[17:10]` is not zero. -/
  | resolveReservedNonzero
  deriving DecidableEq, Repr

/-- What a request decodes to: `Derive(w)` or `Resolve(s, m, i)`, which are legal, or `Illegal` (30_encoding.md R39), here
with the case of R38 that makes it so. -/
inductive Decoded where
  | legal (i : Instr)
  | illegal (why : IllegalForm)
  deriving DecidableEq, Repr

/-- The operation codes (30_encoding.md R35). -/
def opDerive : BitVec 2 := 0b00#2

/-- The operation codes (30_encoding.md R35). -/
def opResolve : BitVec 2 := 0b01#2

/-- The pseudocode of 30_encoding.md R39 up to the call of the operation, with the operands of R36 and R37. -/
def decodeFields {idxW : Nat} (f : Fields idxW) : Decoded :=
  if f.code = opDerive then
    if f.b = 0 ∧ f.c = 0 then .legal (.derive f.a.toNat) else .illegal .deriveReservedNonzero
  else if f.code = opResolve then
    if f.a.extractLsb' 8 8 = 0 then .legal (.resolve (f.a.extractLsb' 0 8).toNat f.b.toNat f.c.toNat)
    else .illegal .resolveReservedNonzero
  else .illegal .reservedOp

/-- The decoder (30_encoding.md R39): total on the vectors of REQ_W bits. -/
def decode {idxW : Nat} (req : Vec idxW) : Decoded := decodeFields (unpackFields req)

/-- The fields of the request that a text form spells (30_encoding.md R36, R37 and R43). -/
def encodeFields (idxW : Nat) : Instr → Fields idxW
  | .derive wordWidth => { code := opDerive, a := BitVec.ofNat 16 wordWidth, b := 0, c := 0 }
  | .resolve shift mask bitIndex =>
    { code := opResolve
      a := (BitVec.ofNat 8 shift).setWidth 16
      b := BitVec.ofNat idxW mask
      c := BitVec.ofNat idxW bitIndex }

/-- The encoder: the request vector of an instruction (30_encoding.md R43). -/
def encode (idxW : Nat) (i : Instr) : Vec idxW := packFields (encodeFields idxW i)

/-- The instruction that a decoded request stands for, if it is legal. -/
def legalInstr : Decoded → Option Instr
  | .legal i => some i
  | .illegal _ => none

/-- The instruction the decoder reads from a word of opcode_table.json, whose rows are given at IDX_W = 64 (REQ_W = 146).
A word with a bit at 146 or above is no request. -/
def decodeTableWord (nbits w : Nat) : Option Instr :=
  let word := w % 2 ^ nbits
  if word < 2 ^ reqW 64 then legalInstr (decode (BitVec.ofNat (reqW 64) word)) else none

end Sys2Proof
end

