-- ==== Sys2Proof/Machine/Flags.lean ====
section
/-!
DEFINITION. Machine/Flags.lean: the block has no condition flags (10_state.md R14). A response's status field is its only
indication, and it describes that response alone (R17). This file holds the status codes.
-/

namespace Sys2Proof.Machine

/-- The three statuses a response can have (30_encoding.md R42). -/
inductive Status where
  | ok
  | unsupportedWordWidth
  | illegalRequest
  deriving DecidableEq, Repr

/-- The table of 30_encoding.md R42. -/
def statusCode : Status → BitVec 2
  | .ok => 0b00#2
  | .unsupportedWordWidth => 0b01#2
  | .illegalRequest => 0b10#2

/-- The code the table of 30_encoding.md R42 never produces. -/
def forbiddenCode : BitVec 2 := 0b11#2

/-- The status field of a response, bits [1:0] (30_encoding.md R41). -/
def statusBits {idxW : Nat} (rsp : Vec idxW) : BitVec 2 := (unpackFields rsp).code

/-- The status a code names (30_encoding.md R42); code 11 names none. -/
def statusOf (code : BitVec 2) : Option Status :=
  if code = statusCode .ok then some .ok
  else if code = statusCode .unsupportedWordWidth then some .unsupportedWordWidth
  else if code = statusCode .illegalRequest then some .illegalRequest
  else none

end Sys2Proof.Machine
end

