-- ==== Sys2Proof/Machine/Operands.lean ====
section
/-!
DEFINITION. Machine/Operands.lean: the operands of the two operations and the per-instance TABLE. Every operand arrives in the
request, unsigned, with no sign extension, scaling or shift (10_state.md R18; 30_encoding.md R36, R37).
-/

namespace Sys2Proof.Machine

/-- DERIVE's operand, a 16-bit unsigned word width (30_encoding.md R36). -/
def wordWidthOperand (wordWidth : Nat) : WordWidth := BitVec.ofNat 16 wordWidth

/-- RESOLVE's shift, 8-bit unsigned (30_encoding.md R37). -/
def shiftOperand (shift : Nat) : Shift := BitVec.ofNat 8 shift

/-- RESOLVE's mask and bit index, IDX_W-bit unsigned (30_encoding.md R37). -/
def indexOperand (idxW value : Nat) : BitVec idxW := BitVec.ofNat idxW value

/-- NATIVE_TABLE (00_scope.md R6). -/
def nativeTable : Table := [(8, some 3), (16, some 4), (32, some 5), (64, some 6), (128, some 7)]

/-- The TABLE of each instance (00_scope.md R3, R6, R7). -/
def tableOf (c : Config) : InstanceId → Table
  | .native => nativeTable
  | .hash => c.hashTable

/-- `TABLE(w)` of 00_scope.md section 5: `some s` or `none`. An explicit lookup, never a log2 (40_derive.md R47). -/
def lookupTable : Table → WordWidth → Option Shift
  | [], _ => none
  | (width, entry) :: rest, w => if width = w then entry else lookupTable rest w

/-- The mask of 40_derive.md R45 and R46, by its two complementary shifts of the all-ones value; each shift truncates to
IDX_W bits and gives 0 at a shift of IDX_W or more (00_scope.md section 5). -/
def maskOfShift (idxW : Nat) (shift : Shift) : BitVec idxW :=
  (ones idxW <<< (idxW - shift.toNat)) >>> (idxW - shift.toNat)

end Sys2Proof.Machine
end

