-- ==== Sys2Proof/Machine/State.lean ====
section
/-!
DEFINITION. Machine/State.lean: the state of the machine as plain data, and its value after reset. The block has no
architectural state (10_state.md R13, R14, R17, R18); its only storage is the pipeline of R22. The other fields are the
elaboration constants (R15), carried unchanged, and the host agent of 00_scope.md R10.
-/

namespace Sys2Proof.Machine

/-- One pipeline stage k: the valid bit v_k and the response register p_k (10_state.md R22). -/
structure Stage (idxW : Nat) where
  valid : Bool
  payload : Vec idxW
  deriving DecidableEq, Repr

/-- What one copy's input ports carry in one cycle (30_encoding.md, table of R32). A copy with RESP_LATENCY = 0 has no
`rst` pin and reads none. -/
structure PortIn (idxW : Nat) where
  reqValid : Bool
  req : Vec idxW
  rst : Bool
  deriving DecidableEq, Repr

/-- One past cycle of a copy as the host saw it: what it presented, and the output ports: `some rsp` while rsp_valid = 1,
and no value while rsp_valid = 0 (30_encoding.md R32). -/
structure CycleRecord (idxW : Nat) where
  port : PortIn idxW
  rsp : Option (Vec idxW)
  deriving DecidableEq, Repr

/-- One copy of the block (00_scope.md R3): its pipeline, stage 1 first (10_state.md R22), and the host's record of its past
cycles, newest first (the model's own field, log 6; no storage of the block). -/
structure Block (idxW : Nat) where
  stages : List (Stage idxW)
  trace : List (CycleRecord idxW)
  deriving DecidableEq, Repr

/-- One cycle the host presents: which copy's port it drives (00_scope.md R3), and with what. -/
structure HostCycle (idxW : Nat) where
  inst : InstanceId
  port : PortIn idxW
  deriving DecidableEq, Repr

/-- The whole machine: the elaboration constants (10_state.md R15), the two copies NATIVE and HASH (R19), and the host's side
(log 5): the cycles it has still to present, next one first, and the copy it drives now. -/
structure State where
  cfg : Config
  native : Block cfg.idxW
  hash : Block cfg.idxW
  inputs : List (HostCycle cfg.idxW)
  sel : InstanceId
  deriving DecidableEq, Repr

/-- Why the machine stops with a fault. -/
inductive Fault where
  /-- Raised by `presentCycle` when a response with status 11 stands on the output ports: "a model that observes it has
  observed what this spec forbids, and treats it as a fault" (30_encoding.md R42; 93_implementation_defined.md I7). No
  run reaches it. Safe. -/
  | forbiddenStatus
  deriving DecidableEq, Repr

/-- Why the machine gives no next state. -/
inductive Refusal where
  /-- Raised by an arm of `exec` whose instruction has no meaning yet; no arm of this model does. Safe. -/
  | notModelled (mnemonic : String)
  /-- Raised by a meaning when a literal does not fit its field: "Such text does not spell a request" (30_encoding.md R43;
  93_implementation_defined.md I12, I16). No decoded request meets it. Safe. -/
  | operandDoesNotFit
  /-- Raised by `elaborate` for a configuration that is not conforming: "An ill-formed TABLE is refused at elaboration"
  (00_scope.md R8; 93_implementation_defined.md I13). That an IDX_W outside R5 or a HASH_TABLE without R7's 8 ↦ 4 is refused
  too is log 16's choice. No step raises it. Safe. -/
  | illFormedConfig
  deriving DecidableEq, Repr

/-- A copy right after reset: L stages, every v_k = 0 and every p_k unspecified (10_state.md section 4), so a free payload
(log 2); and an empty record. -/
def resetBlock (c : Config) (inst : InstanceId) : Block c.idxW where
  stages := (List.range c.respLatency).map fun k => ⟨false, Config.freePayload c.idxW inst 0 (k + 1)⟩
  trace := []

/-- The machine of configuration `c` right after reset, with no cycle presented yet. -/
def State.init (c : Config) : State where
  cfg := c
  native := resetBlock c .native
  hash := resetBlock c .hash
  inputs := []
  sel := .native

/-- The machine right after reset, at the spec's default parameters (00_scope.md R5, R9). -/
def State.reset : State := State.init defaultConfig

end Sys2Proof.Machine
end

