-- ==== Sys2Proof/Machine/Ops.lean ====
section
/-!
DEFINITION. Machine/Ops.lean: the shared operations: the forms of a response (30_encoding.md R41), a cycle of one copy
(10_state.md R22, 70_reset_and_hazards.md R71), and elaboration (00_scope.md R8). The block takes no exception: `raiseStatus`
is all that an error does (60_exceptions.md R61), and there is nothing to return from (R66).
-/

namespace Sys2Proof.Machine

/-- `raise E()`: a response with the status of E and every data bit zero; nothing else happens (60_exceptions.md R61). -/
def raiseStatus {idxW : Nat} (e : Status) : Vec idxW := packFields { code := statusCode e, a := 0, b := 0, c := 0 }

/-- The response to a successful DERIVE: shift in A[7:0], mask in B, all else 0 (30_encoding.md R41). -/
def okDerive {idxW : Nat} (shift : Shift) (mask : BitVec idxW) : Vec idxW :=
  packFields { code := statusCode .ok, a := shift.setWidth 16, b := mask, c := 0 }

/-- The response to RESOLVE: bit_offset in B, word_index in C, all else 0 (30_encoding.md R41). -/
def okResolve {idxW : Nat} (wordIndex bitOffset : BitVec idxW) : Vec idxW :=
  packFields { code := statusCode .ok, a := 0, b := bitOffset, c := wordIndex }

/-- The copy an instance names (00_scope.md R3). -/
def State.block (s : State) : InstanceId → Block s.cfg.idxW
  | .native => s.native
  | .hash => s.hash

/-- The state with one copy replaced; the other copy and all else stay (10_state.md R19). -/
def State.setBlock (s : State) (inst : InstanceId) (b : Block s.cfg.idxW) : State :=
  { s with
    native := if inst = .native then b else s.native
    hash := if inst = .hash then b else s.hash }

/-- What the output ports of a copy carry during a cycle: with no stage (L = 0) rsp_valid = req_valid and rsp is the answer
(30_encoding.md R32); else rsp_valid = v_L and rsp = p_L (10_state.md R22). `none` is rsp_valid = 0. -/
def blockOut {idxW : Nat} (stages : List (Stage idxW)) (port : PortIn idxW) (answer : Vec idxW) : Option (Vec idxW) :=
  match stages.getLast? with
  | none => if port.reqValid then some answer else none
  | some last => if last.valid then some last.payload else none

/-- A rising edge with rst = 0: stage 1 takes req_valid and the answer, stage k takes stage k − 1 (10_state.md R22). -/
def shiftStages {idxW : Nat} (port : PortIn idxW) (answer : Vec idxW) (stages : List (Stage idxW)) : List (Stage idxW) :=
  (⟨port.reqValid, answer⟩ :: stages).dropLast

/-- A rising edge with rst = 1: every valid bit becomes 0 (70_reset_and_hazards.md R71), and every payload is unspecified
(10_state.md R22): a free payload for each cycle and stage (log 2). -/
def clearStages {idxW : Nat} (inst : InstanceId) (cycle : Nat) (stages : List (Stage idxW)) : List (Stage idxW) :=
  (List.range stages.length).map fun k => ⟨false, Config.freePayload idxW inst cycle (k + 1)⟩

/-- One cycle of a copy: the outputs are those before the edge that ends it (10_state.md R22), and the host records them. With
no stage there is no clock and no reset: the edge does nothing (70_reset_and_hazards.md R71). -/
def clockBlock {idxW : Nat} (inst : InstanceId) (port : PortIn idxW) (answer : Vec idxW) (b : Block idxW) : Block idxW where
  stages :=
    if port.rst then clearStages inst (b.trace.length + 1) b.stages else shiftStages port answer b.stages
  trace := ⟨port, blockOut b.stages port answer⟩ :: b.trace

/-- Whether a response with the forbidden status 11 is on the output ports (30_encoding.md R42). -/
def showsForbidden {idxW : Nat} (out : Option (Vec idxW)) : Bool :=
  match out with
  | none => false
  | some rsp => statusBits rsp == forbiddenCode

/-- The selected copy goes through one cycle with `port` on its inputs, where `answer` is the block's response to
`port.req`. -/
def presentCycle (s : State) (port : PortIn s.cfg.idxW) (answer : Vec s.cfg.idxW) : Host.Outcome State Fault Refusal :=
  if showsForbidden (blockOut (s.block s.sel).stages port answer) then .fault .forbiddenStatus
  else .next (s.setBlock s.sel (clockBlock s.sel port answer (s.block s.sel)))

/-- The input ports of a cycle that presents a valid request, out of reset (30_encoding.md R32). -/
def requestPort {idxW : Nat} (req : Vec idxW) : PortIn idxW := { reqValid := true, req := req, rst := false }

/-- The response on a copy's output ports in its last cycle, if rsp_valid was 1. -/
def lastResponse {idxW : Nat} (b : Block idxW) : Option (Vec idxW) :=
  match b.trace with
  | [] => none
  | record :: _ => record.rsp

/-- The last response of a copy as one unsigned integer, the way spec/95_test_vectors.md writes it; `none` while rsp_valid = 0. -/
def responseValue (s : State) (inst : InstanceId) : Option Nat := (lastResponse (s.block inst)).map BitVec.toNat

/-- Elaboration of a hardware: an ill-formed TABLE is refused, so no block exists with it (00_scope.md R8). DESIGN CHOICE
(log 16): so is a configuration that departs from R5 or R7, and a conforming one answers its reset state. -/
def elaborate (c : Config) : Host.Outcome State Fault Refusal :=
  if configWf c then .next (State.init c) else .refused .illFormedConfig

end Sys2Proof.Machine
end

