-- ==== Sys2Proof/Machine/Derive.lean ====
section
/-!
DEFINITION. Machine/Derive.lean: the DERIVE family (40_derive.md).
-/

namespace Sys2Proof.Machine

/-- The pseudocode of 40_derive.md R45: the TABLE's shift and its mask, or UNSUPPORTED_WORD_WIDTH with no data (R48). -/
def deriveResponse {idxW : Nat} (table : Table) (wordWidth : WordWidth) : Vec idxW :=
  match lookupTable table wordWidth with
  | none => raiseStatus .unsupportedWordWidth
  | some shift => okDerive shift (maskOfShift idxW shift)

/-- DERIVE presented to the selected copy, valid and out of reset (40_derive.md R45, R49; 60_exceptions.md R68: in any
order, at any time). A width that does not fit the field is no request (30_encoding.md R43; 93 I16). -/
def execDerive (wordWidth : Nat) (s : State) : Host.Outcome State Fault Refusal :=
  if WellFormed s.cfg.idxW (.derive wordWidth) then
    presentCycle s (requestPort (encode s.cfg.idxW (.derive wordWidth)))
      (deriveResponse (tableOf s.cfg s.sel) (wordWidthOperand wordWidth))
  else .refused .operandDoesNotFit

end Sys2Proof.Machine
end

