-- ==== Sys2Proof/Machine/Resolve.lean ====
section
/-!
DEFINITION. Machine/Resolve.lean: the RESOLVE family (41_resolve.md).
-/

namespace Sys2Proof.Machine

/-- The pseudocode of 41_resolve.md R52: a logical right shift, 0 at a shift of IDX_W or more (R53), and an AND, for any
pair (R54); no division, no check, no error (60_exceptions.md R64). -/
def resolveResponse {idxW : Nat} (shift : Shift) (mask bitIndex : BitVec idxW) : Vec idxW :=
  okResolve (bitIndex >>> shift.toNat) (bitIndex &&& mask)

/-- RESOLVE presented to the selected copy, valid and out of reset (41_resolve.md R52, R60). A literal that does not fit its
field is no request (30_encoding.md R43; 93 I12). -/
def execResolve (shift mask bitIndex : Nat) (s : State) : Host.Outcome State Fault Refusal :=
  if WellFormed s.cfg.idxW (.resolve shift mask bitIndex) then
    presentCycle s (requestPort (encode s.cfg.idxW (.resolve shift mask bitIndex)))
      (resolveResponse (shiftOperand shift) (indexOperand s.cfg.idxW mask) (indexOperand s.cfg.idxW bitIndex))
  else .refused .operandDoesNotFit

end Sys2Proof.Machine
end

