-- ==== Sys2Proof/Machine/Dispatch.lean ====
section
/-!
DEFINITION. Machine/Dispatch.lean: one arm per constructor of Instr.
-/

namespace Sys2Proof.Machine

def exec (i : Instr) (s : State) : Host.Outcome State Fault Refusal :=
  match i with
  | .derive wordWidth => Sys2Proof.Machine.execDerive wordWidth s
  | .resolve shift mask bitIndex => Sys2Proof.Machine.execResolve shift mask bitIndex s

end Sys2Proof.Machine
end

