-- ==== Sys2Proof/Machine/Respond.lean ====
section
/-!
DEFINITION. Machine/Respond.lean: the block's response function, which the spec calls `exec` (30_encoding.md R39): request
vector to response vector, reading nothing but the request and the elaboration parameters. The step and the pipeline
use it for every request, legal or not; the fixed name `exec` is Dispatch.lean's.
-/

namespace Sys2Proof.Machine

/-- The response to a legal request (30_encoding.md R39). -/
def answerInstr {idxW : Nat} (table : Table) : Instr → Vec idxW
  | .derive wordWidth => deriveResponse table (wordWidthOperand wordWidth)
  | .resolve shift mask bitIndex =>
    resolveResponse (shiftOperand shift) (indexOperand idxW mask) (indexOperand idxW bitIndex)

/-- The response to any request: ILLEGAL_REQUEST is decided first, on the encoding alone (60_exceptions.md R63, R65). -/
def respond {idxW : Nat} (table : Table) (req : Vec idxW) : Vec idxW :=
  match decode req with
  | .legal i => answerInstr table i
  | .illegal _ => raiseStatus .illegalRequest

end Sys2Proof.Machine
end

