-- ==== Sys2Proof/Machine/Step.lean ====
section
/-!
DEFINITION. Machine/Step.lean: one step is one cycle of one copy, the next that the host presents. Several copies that are
clocked together are several steps, in any order (20_memory.md R30; 10_state.md R19).
-/

namespace Sys2Proof.Machine

/-- The host presents its next cycle. With none presented nothing moves: the block "never takes a step without a request and
never initiates anything" (00_scope.md R10). A valid request out of reset is decoded: a legal one is executed, an illegal
one is answered with ILLEGAL_REQUEST (30_encoding.md R39). In a cycle with no valid request, or one that a reset edge ends,
the answer to what is on `req` goes where 10_state.md R22 and 70_reset_and_hazards.md R71 send it. -/
def step (s : State) : Host.Outcome State Fault Refusal :=
  match s.inputs with
  | [] => .next s
  | cycle :: rest =>
    let s' : State := { s with inputs := rest, sel := cycle.inst }
    if cycle.port.reqValid && !cycle.port.rst then
      match decode cycle.port.req with
      | .legal i => exec i s'
      | .illegal _ => presentCycle s' cycle.port (raiseStatus .illegalRequest)
    else presentCycle s' cycle.port (respond (tableOf s'.cfg s'.sel) cycle.port.req)

/-- The host presents the request `w` next, valid and out of reset, to the copy it drives, in the place of the cycle it
would have presented (log 5). -/
def State.withFetchWord (s : State) (nbits w : Nat) : State :=
  { s with inputs := ⟨s.sel, requestPort (BitVec.ofNat (reqW s.cfg.idxW) (w % 2 ^ nbits))⟩ :: s.inputs.tail }

end Sys2Proof.Machine
end

