-- ==== Sys2Proof/Machine/HostBytes.lean ====
section
/-!
DEFINITION. Machine/HostBytes.lean: a host that serialises a request or a response into bytes, in the open HOST_BYTE_ORDER
(20_memory.md R25). The block sees no byte, and nothing of it uses this file. The padding of the last byte, and what is read from
bytes that no vector was laid out in, are log 4's choices.
-/

namespace Sys2Proof.Machine

/-- How many bytes carry a vector. -/
def vectorBytes (idxW : Nat) : Nat := (reqW idxW + 7) / 8

/-- The low `n` bytes of a number, least significant first. -/
def lowBytes : Nat → Nat → List (BitVec 8)
  | 0, _ => []
  | n + 1, v => BitVec.ofNat 8 v :: lowBytes n (v / 256)

/-- The number that bytes spell, least significant first. -/
def valueOfBytes : List (BitVec 8) → Nat
  | [] => 0
  | b :: bs => b.toNat + 256 * valueOfBytes bs

/-- Bytes put in the host's order, or back from it. -/
def inByteOrder (order : ByteOrder) (bytes : List (BitVec 8)) : List (BitVec 8) :=
  match order with
  | .leastFirst => bytes
  | .mostFirst => bytes.reverse

/-- A vector as bytes in the host's order (20_memory.md R25), zeros above its last bit. -/
def toHostBytes {idxW : Nat} (order : ByteOrder) (v : Vec idxW) : List (BitVec 8) :=
  inByteOrder order (lowBytes (vectorBytes idxW) v.toNat)

/-- The vector that bytes in the host's order carry. DESIGN CHOICE (log 4; the spec says nothing of reading bytes back): it is
total, padding bits that are not zero and bytes beyond the vector's length are dropped, and missing bytes are zeros. -/
def fromHostBytes {idxW : Nat} (order : ByteOrder) (bytes : List (BitVec 8)) : Vec idxW :=
  BitVec.ofNat (reqW idxW) (valueOfBytes (inByteOrder order bytes))

end Sys2Proof.Machine
end

