-- ==== Sys2Proof/Machine/Text.lean ====
section
/-!
DEFINITION. Machine/Text.lean: the text of requests and results (30_encoding.md R43, R44), as lists of characters. What R43
leaves open of it (spaces, the case of a hexadecimal digit, the radix of a printed result, the text of a response that R41 does
not give) is in log 8.
-/

namespace Sys2Proof.Machine

/-- The digits of a numeral, 0 to 15 in order. -/
def digitAlphabet : List Char :=
  ['0', '1', '2', '3', '4', '5', '6', '7', '8', '9', 'A', 'B', 'C', 'D', 'E', 'F']

/-- The character of one digit. -/
def digitText (d : Nat) : Char := digitAlphabet.getD d '0'

/-- The numeral of `n`, most significant digit first, with at most `fuel` digits. -/
def numeralText (base : Nat) : Nat → Nat → List Char
  | 0, _ => []
  | fuel + 1, n => if n < base then [digitText n] else numeralText base fuel (n / base) ++ [digitText (n % base)]

/-- A decimal literal. -/
def decimalText (n : Nat) : List Char := numeralText 10 (n + 1) n

/-- A hexadecimal literal with its `0x` (30_encoding.md R43). -/
def hexText (n : Nat) : List Char := ['0', 'x'] ++ numeralText 16 (n + 1) n

/-- The value of a digit in upper or lower case, if it is one. -/
def digitValue (c : Char) : Option Nat := digitAlphabet.idxOf? c.toUpper

/-- The numeral that a list of digits spells after a value `acc`, if every character is a digit of the base. -/
def numeralValue (base : Nat) : List Char → Nat → Option Nat
  | [], acc => some acc
  | c :: cs, acc =>
    match digitValue c with
    | none => none
    | some d => if d < base then numeralValue base cs (acc * base + d) else none

/-- The value of a non-empty numeral. -/
def numeralOf (base : Nat) (cs : List Char) : Option Nat := if cs = [] then none else numeralValue base cs 0

/-- An unsigned literal, decimal or `0x`-prefixed hexadecimal (30_encoding.md R43). -/
def literalOf : List Char → Option Nat
  | '0' :: 'x' :: digits => numeralOf 16 digits
  | digits => numeralOf 10 digits

/-- `derive_addressing(`, the front of a DERIVE (30_encoding.md R43). -/
def deriveFront : List Char :=
  ['d', 'e', 'r', 'i', 'v', 'e', '_', 'a', 'd', 'd', 'r', 'e', 's', 's', 'i', 'n', 'g', '(']

/-- `resolve(`, the front of a RESOLVE (30_encoding.md R43). -/
def resolveFront : List Char := ['r', 'e', 's', 'o', 'l', 'v', 'e', '(']

/-- `native.`, the first word that names the NATIVE instance (30_encoding.md R43). -/
def nativeFront : List Char := ['n', 'a', 't', 'i', 'v', 'e', '.']

/-- `hash.`, the first word that names the HASH instance (30_encoding.md R43). -/
def hashFront : List Char := ['h', 'a', 's', 'h', '.']

/-- `.illegal `, the front of a disassembled illegal request (30_encoding.md R44). -/
def illegalFront : List Char := ['.', 'i', 'l', 'l', 'e', 'g', 'a', 'l', ' ']

/-- What follows `front` in a text that begins with it. -/
def afterFront : List Char → List Char → Option (List Char)
  | [], text => some text
  | _ :: _, [] => none
  | f :: front, c :: text => if f = c then afterFront front text else none

/-- The text before a final closing parenthesis. -/
def beforeClose (text : List Char) : Option (List Char) :=
  if text.getLast? = some ')' then some text.dropLast else none

/-- The arguments between the parentheses: cut at each comma. -/
def cutAtCommas : List Char → List (List Char)
  | [] => [[]]
  | c :: text =>
    if c = ',' then [] :: cutAtCommas text
    else match cutAtCommas text with
      | [] => [[c]]
      | first :: others => (c :: first) :: others

/-- The values of the arguments of a call; spaces before a literal are skipped (log 8). -/
def argumentsOf (text : List Char) : Option (List Nat) :=
  match beforeClose text with
  | none => none
  | some inner => (cutAtCommas inner).mapM fun arg => literalOf (arg.dropWhile (· = ' '))

/-- A call `derive_addressing(W)` or `resolve(I, S, M)`, not yet checked for range (30_encoding.md R43). -/
def callOf (text : List Char) : Option Instr :=
  match afterFront deriveFront text with
  | some rest =>
    match argumentsOf rest with
    | some [w] => some (.derive w)
    | _ => none
  | none =>
    match afterFront resolveFront text with
    | some rest =>
      match argumentsOf rest with
      | some [i, s, m] => some (.resolve s m i)
      | _ => none
    | none => none

/-- The optional prefix `native.` or `hash.`, which is no part of the encoding, and the rest (30_encoding.md R43). -/
def targetOf (text : List Char) : Option InstanceId × List Char :=
  match afterFront nativeFront text with
  | some rest => (some .native, rest)
  | none =>
    match afterFront hashFront text with
    | some rest => (some .hash, rest)
    | none => (none, text)

/-- The assembler (30_encoding.md R43): the instance named, if one is, and the request. It refuses a literal that does not fit
its field; such text does not spell a request. -/
def assemble (idxW : Nat) (text : List Char) : Option (Option InstanceId × Instr) :=
  match callOf (targetOf text).2 with
  | none => none
  | some i => if WellFormed idxW i then some ((targetOf text).1, i) else none

/-- The text of a legal request (30_encoding.md R44). -/
def callText : Instr → List Char
  | .derive w => deriveFront ++ decimalText w ++ [')']
  | .resolve s m i => resolveFront ++ hexText i ++ [',', ' '] ++ decimalText s ++ [',', ' '] ++ hexText m ++ [')']

/-- The disassembler (30_encoding.md R44). -/
def disassemble {idxW : Nat} (req : Vec idxW) : List Char :=
  match decode req with
  | .legal i => callText i
  | .illegal _ => illegalFront ++ hexText req.toNat

/-- `-> OK(`, the front of a result (30_encoding.md R43). -/
def okFront : List Char := ['-', '>', ' ', 'O', 'K', '(']

/-- `-> UNSUPPORTED_WORD_WIDTH` (30_encoding.md R43). -/
def unsupportedText : List Char :=
  ['-', '>', ' '] ++ "UNSUPPORTED_WORD_WIDTH".toList

/-- `-> ILLEGAL_REQUEST` (30_encoding.md R43). -/
def illegalText : List Char := ['-', '>', ' '] ++ "ILLEGAL_REQUEST".toList

/-- The text of a result (30_encoding.md R43), for a response and the request it answers. DESIGN CHOICE (log 8; the spec says
nothing of it): a response without R41's form for that request, a bit that R41 shows as 0 being 1 or its status being another
operation's, has no text. -/
def resultText {idxW : Nat} (request : Decoded) (rsp : Vec idxW) : Option (List Char) :=
  let f := unpackFields rsp
  match statusOf f.code, request with
  | some .ok, .legal (.derive _) =>
    if rsp = okDerive (f.a.extractLsb' 0 8) f.b then
      some (okFront ++ decimalText f.a.toNat ++ [',', ' '] ++ decimalText f.b.toNat ++ [')'])
    else none
  | some .ok, .legal (.resolve _ _ _) =>
    if rsp = okResolve f.c f.b then
      some (okFront ++ decimalText f.c.toNat ++ [',', ' '] ++ decimalText f.b.toNat ++ [')'])
    else none
  | some .unsupportedWordWidth, .legal (.derive _) =>
    if rsp = raiseStatus .unsupportedWordWidth then some unsupportedText else none
  | some .illegalRequest, .illegal _ => if rsp = raiseStatus .illegalRequest then some illegalText else none
  | _, _ => none

end Sys2Proof.Machine
end

