-- ==== Sys2Proof/Safety.lean ====
section
/-!
DEFINITION. Safety.lean: what the statements call a good state and a good run: the invariant that ties each pipeline to the
record of its port (10_state.md R22, 70_reset_and_hazards.md R71), the derived pairs (40_derive.md R45), and the host's
duties (70_reset_and_hazards.md R74 to R78), which the block does not check.
-/

namespace Sys2Proof.Machine

/-! ### The pipeline and the record of its port -/

/-- What a stage holds: its payload while its valid bit is 1 (10_state.md R22). -/
def stageHeld {idxW : Nat} (st : Stage idxW) : Option (Vec idxW) := if st.valid then some st.payload else none

/-- What 10_state.md R22 and 70_reset_and_hazards.md R71 say stage k + 1 holds after a record of past cycles, newest first:
the response to the valid request presented k cycles before the last, unless a reset edge has come since or ended that very
cycle. -/
def heldAfter {idxW : Nat} (table : Table) : Nat → List (CycleRecord idxW) → Option (Vec idxW)
  | _, [] => none
  | 0, e :: _ => if e.port.rst then none else if e.port.reqValid then some (respond table e.port.req) else none
  | k + 1, e :: older => if e.port.rst then none else heldAfter table k older

/-- What the output ports carry in a cycle with `port` presented after the record `older` (30_encoding.md R32): with L = 0
the response to this cycle's request, with L > 0 what stage L holds. -/
def outputAfter {idxW : Nat} (table : Table) (latency : Nat) (port : PortIn idxW) (older : List (CycleRecord idxW)) :
    Option (Vec idxW) :=
  match latency with
  | 0 => if port.reqValid then some (respond table port.req) else none
  | k + 1 => heldAfter table k older

/-- Every recorded output is the one outputAfter gives. -/
def traceOk {idxW : Nat} (table : Table) (latency : Nat) : List (CycleRecord idxW) → Prop
  | [] => True
  | e :: older => e.rsp = outputAfter table latency e.port older ∧ traceOk table latency older

/-- A copy's invariant: it has L stages, each holds what its record says (10_state.md R22), and every recorded output was
right. -/
def blockOk {idxW : Nat} (table : Table) (latency : Nat) (b : Block idxW) : Prop :=
  b.stages.map stageHeld = (List.range latency).map (fun k => heldAfter table k b.trace) ∧ traceOk table latency b.trace

/-- The machine's invariant: a conforming configuration (00_scope.md R5 to R9), and both copies as their records say. -/
def State.Inv (s : State) : Prop :=
  configWf s.cfg = true ∧
    ∀ inst : InstanceId, blockOk (tableOf s.cfg inst) s.cfg.respLatency (s.block inst)

/-- The weaker condition under which a cycle does not fault (30_encoding.md R42): no valid last stage of the selected copy
holds status 11. -/
def State.NoForbidden (s : State) : Prop :=
  ∀ st, (s.block s.sel).stages.getLast? = some st → st.valid = true → statusBits st.payload ≠ forbiddenCode

/-- The state in which the host has moved on to its next cycle, before that cycle runs: the rest of the schedule, and the copy
whose port it drives (log 5). -/
abbrev State.advance (s : State) (cycle : HostCycle s.cfg.idxW) (rest : List (HostCycle s.cfg.idxW)) : State :=
  { s with inputs := rest, sel := cycle.inst }

/-- The same machine under another HOST_BYTE_ORDER (20_memory.md R25). -/
abbrev State.withByteOrder (s : State) (order : ByteOrder) : State :=
  { cfg := { s.cfg with hostByteOrder := order }, native := s.native, hash := s.hash, inputs := s.inputs, sel := s.sel }

/-! ### Derived pairs -/

/-- (shift, mask) is a derived pair of the table (00_scope.md section 7; 40_derive.md R45): the answer to some DERIVE is OK
with this pair. -/
def Derived {idxW : Nat} (table : Table) (shift : Shift) (mask : BitVec idxW) : Prop :=
  ∃ wordWidth : WordWidth, deriveResponse table wordWidth = okDerive shift mask

/-- The period P = 2^shift (00_scope.md section 7). -/
def period (shift : Shift) : Nat := 2 ^ shift.toNat

/-- The word_index that a copy answers to RESOLVE(shift, mask, bit_index): field C of its response (30_encoding.md R41). -/
def resolvedWordIndex {idxW : Nat} (table : Table) (shift : Shift) (mask bitIndex : BitVec idxW) : BitVec idxW :=
  (unpackFields (respond table (packFields ⟨0b01#2, shift.setWidth 16, mask, bitIndex⟩))).c

/-- The bit_offset that a copy answers to RESOLVE(shift, mask, bit_index): field B of its response (30_encoding.md R41). -/
def resolvedBitOffset {idxW : Nat} (table : Table) (shift : Shift) (mask bitIndex : BitVec idxW) : BitVec idxW :=
  (unpackFields (respond table (packFields ⟨0b01#2, shift.setWidth 16, mask, bitIndex⟩))).b

/-! ### The host's duties -/

/-- The request that the output of the newest recorded cycle answers: the one presented L cycles before (10_state.md R22). -/
def answeredRequest {idxW : Nat} (latency : Nat) (cycles : List (CycleRecord idxW)) : Option (Vec idxW) :=
  match cycles[latency]? with
  | none => none
  | some e => if e.port.reqValid then some e.port.req else none

/-- The pair that a RESOLVE presented on this port carries, if one is. -/
def resolvePair {idxW : Nat} (port : PortIn idxW) : Option (Shift × BitVec idxW) :=
  if port.reqValid then
    match decode port.req with
    | .legal (.resolve shift mask _) => some (shiftOperand shift, indexOperand idxW mask)
    | _ => none
  else none

/-- The output of the newest recorded cycle is the OK answer to a DERIVE, with the pair (shift, mask). -/
def answersDerive {idxW : Nat} (latency : Nat) (shift : Shift) (mask : BitVec idxW) (cycles : List (CycleRecord idxW)) : Bool :=
  match answeredRequest latency cycles, cycles with
  | some req, e :: _ =>
    match decode req with
    | .legal (.derive _) => e.rsp == some (okDerive shift mask)
    | _ => false
  | _, _ => false

/-- The host has received (shift, mask) as the OK answer to a DERIVE, in the newest recorded cycle or an earlier one
(70_reset_and_hazards.md R74, R76, R78). -/
def receivedPair {idxW : Nat} (latency : Nat) (shift : Shift) (mask : BitVec idxW) : List (CycleRecord idxW) → Bool
  | [] => false
  | e :: older => answersDerive latency shift mask (e :: older) || receivedPair latency shift mask older

/-- A copy's record up to and with the cycle in which its first RESOLVE was presented; empty if none was. -/
def untilFirstResolve {idxW : Nat} : List (CycleRecord idxW) → List (CycleRecord idxW)
  | [] => []
  | e :: older =>
    match untilFirstResolve older with
    | [] => if (resolvePair e.port).isSome then e :: older else []
    | start => start

/-- The host's duties on one copy that its record can show: every RESOLVE it presents carries, as one pair and unchanged, a
shift and a mask that a successful DERIVE of the same copy returned (70_reset_and_hazards.md R76), and it had received that
answer before the copy's first RESOLVE (R74), so every pair it uses was derived first; the cycle of that RESOLVE is the
earliest that can still bring an answer (R78). A pair made up after UNSUPPORTED_WORD_WIDTH breaks it (R75). What "once" and
"before" mean here is log 15's. -/
def hostObeys {idxW : Nat} (latency : Nat) (cycles : List (CycleRecord idxW)) : Bool :=
  cycles.all fun e =>
    match resolvePair e.port with
    | none => true
    | some (shift, mask) => receivedPair latency shift mask (untilFirstResolve cycles)

/-- The bounds check the host owes before it uses a word index (70_reset_and_hazards.md R77). -/
def inBounds {α : Type} (array : List α) (wordIndex : Nat) : Bool := decide (wordIndex < array.length)

/-- How a host tests a bit at a resolved address: `(word >> bit_offset) & 1` (20_memory.md R24). A word index that fails the
bounds check is refused (70_reset_and_hazards.md R77; 93_implementation_defined.md I15): `none`, no bit.
DESIGN CHOICE (log 17): a word is a number with no width, so a bit_offset at or past the width of the host's words (2^s slots,
R26), which no derived pair gives, reads a 0. -/
def hostTestBit (array : List Nat) (wordIndex bitOffset : Nat) : Option Bool :=
  if inBounds array wordIndex then some ((array.getD wordIndex 0).testBit bitOffset) else none

/-- How a host sets a bit at a resolved address: `word | (1 << bit_offset)` (20_memory.md R24). A word index that fails the
bounds check is refused (70_reset_and_hazards.md R77; 93_implementation_defined.md I15): `none`, no array.
DESIGN CHOICE (log 17): the word is not truncated, so a bit_offset at or past the width of the host's words (2^s slots, R26), which
no derived pair gives, sets a bit beyond it. -/
def hostSetBit (array : List Nat) (wordIndex bitOffset : Nat) : Option (List Nat) :=
  if inBounds array wordIndex then some (array.set wordIndex (array.getD wordIndex 0 ||| 1 <<< bitOffset)) else none

/-- The conceptual sequence of bits that an array of words of `width` bits holds, as one number: global bit b is its bit of
weight 2^b (00_scope.md section 7, 20_memory.md R24). -/
def bitSequence (width : Nat) : List Nat → Nat
  | [] => 0
  | word :: words => word + 2 ^ width * bitSequence width words

end Sys2Proof.Machine
end

