-- ==== Sys2Proof/Certificates/Slice0/Obligations.lean ====
section
/-!
DEFINITION. Certificates/Slice0/Obligations.lean: the statements for the provers, in the order of OBLIGATIONS.json. A response
or request written out as `packFields ⟨code, A, B, C⟩` has these fields (30_encoding.md R34, R41). That one step is one cycle of
one copy, taken from a schedule, is the model's choice (log 5), and so is the record of a copy's past cycles (log 6): every
statement below that speaks of a step, a schedule, a run or a record is in these terms.
-/

open Sys2Proof Sys2Proof.Machine

/-! ### The encoding -/

/-- 30_encoding.md R39, R43: decoding the request that a well-formed instruction encodes gives it back, at every index width
and with every operand. -/
def Obligations.DecodeInvertsEncode : Prop :=
  ∀ (idxW : Nat) (i : Instr), WellFormed idxW i = true → decode (encode idxW i) = .legal i

/-- 30_encoding.md R39, R43: a request that decodes to an instruction is that instruction's only encoding, and its operands
fit their fields. -/
def Obligations.EncodeInvertsDecode : Prop :=
  ∀ (idxW : Nat) (req : Vec idxW) (i : Instr), decode req = .legal i → WellFormed idxW i = true ∧ encode idxW i = req

/-- 30_encoding.md R33 to R36: a vector has 2·IDX_W + 18 bits; it is op + A·2^2 + B·2^18 + C·2^(IDX_W+18) in its four fields;
fields so packed are read back at these positions; and op selects the operation, A, B and C carry its operands. -/
def Obligations.VectorIsItsFields : Prop :=
  ∀ (idxW : Nat), reqW idxW = 2 * idxW + 18 ∧
    (∀ v : Vec idxW,
      v.toNat = (v.extractLsb' 0 2).toNat + (v.extractLsb' 2 16).toNat * 2 ^ 2 + (v.extractLsb' 18 idxW).toNat * 2 ^ 18 +
        (v.extractLsb' (idxW + 18) idxW).toNat * 2 ^ (idxW + 18)) ∧
    (∀ (code : BitVec 2) (a : BitVec 16) (b c : BitVec idxW),
      (packFields ⟨code, a, b, c⟩).toNat = code.toNat + a.toNat * 2 ^ 2 + b.toNat * 2 ^ 18 + c.toNat * 2 ^ (idxW + 18) ∧
      unpackFields (packFields ⟨code, a, b, c⟩) = ⟨code, a, b, c⟩) ∧
    (∀ (code : BitVec 2) (a : BitVec 16) (b c : BitVec idxW),
      decode (packFields ⟨code, a, b, c⟩) =
        if code = 0b00#2 then
          if b = 0 ∧ c = 0 then .legal (.derive a.toNat) else .illegal .deriveReservedNonzero
        else if code = 0b01#2 then
          if a.extractLsb' 8 8 = 0 then .legal (.resolve (a.extractLsb' 0 8).toNat b.toNat c.toNat)
          else .illegal .resolveReservedNonzero
        else .illegal .reservedOp)

/-- 30_encoding.md R37: RESOLVE's shift, mask and bit index stand in A[7:0], B and C; and bits [IDX_W+17:2] of the answer to a
successful DERIVE, copied into a request with op = 01, are a RESOLVE with the table's shift and its mask 2^shift − 1. -/
def Obligations.DerivedPairCopiesIntoRequest : Prop :=
  ∀ (idxW : Nat),
    (∀ (a : BitVec 16) (b c : BitVec idxW), a.extractLsb' 8 8 = 0 →
      decode (packFields ⟨0b01#2, a, b, c⟩) = .legal (.resolve (a.extractLsb' 0 8).toNat b.toNat c.toNat)) ∧
    (∀ (a : BitVec 16) (b c : BitVec idxW), a.extractLsb' 8 8 ≠ 0 →
      decode (packFields ⟨0b01#2, a, b, c⟩) = .illegal .resolveReservedNonzero) ∧
    (∀ (table : Table) (req : Vec idxW) (wordWidth : Nat) (bitIndex : BitVec idxW),
      tableWf idxW table = true → decode req = .legal (.derive wordWidth) → statusBits (respond table req) = 0b00#2 →
      ∃ shift, lookupTable table (BitVec.ofNat 16 wordWidth) = some shift ∧
        decode (packFields
          ⟨0b01#2, (respond table req).extractLsb' 2 16, (respond table req).extractLsb' 18 idxW, bitIndex⟩) =
          .legal (.resolve shift.toNat (2 ^ shift.toNat - 1) bitIndex.toNat))

/-- 30_encoding.md R38, 60_exceptions.md R63: the illegal requests are exactly cases (a), (b) and (c), and each is answered with
status 10 and nothing else. -/
def Obligations.IllegalRequestsExactly : Prop :=
  ∀ (idxW : Nat) (table : Table) (req : Vec idxW),
    ((∃ why, decode req = .illegal why) ↔
      (req.extractLsb' 0 2 = 0b10#2 ∨ req.extractLsb' 0 2 = 0b11#2) ∨
      (req.extractLsb' 0 2 = 0b00#2 ∧ (req.extractLsb' 18 idxW ≠ 0 ∨ req.extractLsb' (idxW + 18) idxW ≠ 0)) ∨
      (req.extractLsb' 0 2 = 0b01#2 ∧ req.extractLsb' 10 8 ≠ 0)) ∧
    ((∃ why, decode req = .illegal why) → (respond table req).toNat = 2)

/-- Words written out from 30_encoding.md R34 to R38 (95_test_vectors.md D4, V25, V43, X1, X5, X9) decode to what they stand
for. -/
def Obligations.SampleWordsDecode : Prop :=
  decode (0x100 : Vec 64) = .legal (.derive 64) ∧
  decode (0x20800000000000000FC0019 : Vec 64) = .legal (.resolve 6 63 130) ∧
  decode (0x3FFFFFFFFFFFFFFFDFFFFFFFFFFFFFFFC00FD : Vec 64) =
    .legal (.resolve 63 0x7FFFFFFFFFFFFFFF 0xFFFFFFFFFFFFFFFF) ∧
  decode (0x2 : Vec 64) = .illegal .reservedOp ∧
  decode (0x40100 : Vec 64) = .illegal .deriveReservedNonzero ∧
  decode (0x20800000000000000FFFC19 : Vec 64) = .illegal .resolveReservedNonzero ∧
  decode (0x2081C000D : Vec 8) = .legal (.resolve 3 7 130)

/-! ### DERIVE -/

/-- 40_derive.md R45: what a copy answers to a request with op = 00, for every word width and every content of B and C; the
masks at s = 0 and s = IDX_W; and the NATIVE corner cases and example that R45 lists. -/
def Obligations.DeriveRequestAnswer : Prop :=
  (∀ (idxW : Nat) (table : Table), tableWf idxW table = true →
    (∀ (wordWidth : WordWidth) (b c : BitVec idxW),
      respond table (packFields ⟨0b00#2, wordWidth, b, c⟩) =
        if b ≠ 0 ∨ c ≠ 0 then packFields ⟨0b10#2, 0, 0, 0⟩
        else match lookupTable table wordWidth with
          | none => packFields ⟨0b01#2, 0, 0, 0⟩
          | some shift => packFields ⟨0b00#2, shift.setWidth 16, BitVec.ofNat idxW (2 ^ shift.toNat - 1), 0⟩) ∧
    (∀ (wordWidth : WordWidth) (shift : Shift), lookupTable table wordWidth = some shift →
      (shift.toNat = 0 → (unpackFields (respond table (packFields ⟨0b00#2, wordWidth, (0 : BitVec idxW), 0⟩))).b = 0) ∧
      (shift.toNat = idxW →
        (unpackFields (respond table (packFields ⟨0b00#2, wordWidth, (0 : BitVec idxW), 0⟩))).b = ones idxW))) ∧
  (∀ wordWidth ∈ [0, 17, 7, 255, 1, 2, 4, 256],
    (respond nativeTable (encode 64 (.derive wordWidth)) : Vec 64) = 0x1) ∧
  encode 64 (.derive 64) = 0x100 ∧ (respond nativeTable 0x100 : Vec 64) = 0xFC0018

/-- 40_derive.md R46: the two-shift form of the mask is 2^s − 1 for every s from 0 to IDX_W. -/
def Obligations.MaskIsLowShiftBits : Prop :=
  ∀ (idxW : Nat) (shift : Shift), shift.toNat ≤ idxW →
    (maskOfShift idxW shift).toNat = 2 ^ shift.toNat - 1 ∧
    maskOfShift idxW shift =
      (BitVec.allOnes idxW <<< (idxW - shift.toNat)) >>> (idxW - shift.toNat)

/-- 00_scope.md R6, 60_exceptions.md R62: NATIVE_TABLE maps the five widths and no other of the 65536. -/
def Obligations.NativeTableValues : Prop :=
  ∀ (wordWidth : WordWidth) (shift : Shift),
    lookupTable (tableOf defaultConfig .native) wordWidth = some shift ↔
      (wordWidth.toNat = 8 ∧ shift.toNat = 3) ∨ (wordWidth.toNat = 16 ∧ shift.toNat = 4) ∨
      (wordWidth.toNat = 32 ∧ shift.toNat = 5) ∨ (wordWidth.toNat = 64 ∧ shift.toNat = 6) ∨
      (wordWidth.toNat = 128 ∧ shift.toNat = 7)

/-- 40_derive.md R50: every successful NATIVE DERIVE has 2^shift = word_width and mask = word_width − 1, and it succeeds on each
of the five entries. -/
def Obligations.NativePeriodIsWordWidth : Prop :=
  ∀ (c : Config), configWf c = true →
    (∀ (wordWidth : WordWidth) (shift : Shift) (mask : BitVec c.idxW),
      deriveResponse (tableOf c .native) wordWidth = okDerive shift mask →
      2 ^ shift.toNat = wordWidth.toNat ∧ mask.toNat = wordWidth.toNat - 1) ∧
    (∀ k : Nat, 3 ≤ k → k ≤ 7 →
      deriveResponse (tableOf c .native) (BitVec.ofNat 16 (2 ^ k)) =
        okDerive (BitVec.ofNat 8 k) (BitVec.ofNat c.idxW (2 ^ k - 1)))

/-- 40_derive.md R51, 00_scope.md R7: HASH answers (4, 15) to width 8 in every conforming configuration; there the period is 16,
not 8. -/
def Obligations.HashWidthEightGivesFour : Prop :=
  ∀ (c : Config), configWf c = true →
    respond (tableOf c .hash) (encode c.idxW (.derive 8)) = packFields ⟨0b00#2, 4, BitVec.ofNat c.idxW 15, 0⟩ ∧
    Derived (tableOf c .hash) 4 (BitVec.ofNat c.idxW 15) ∧ period 4 = 16

/-- 60_exceptions.md R62: status 01 answers exactly the legal DERIVEs whose width is no key. NATIVE has five keys; no width that
is not a power of two, 0 among them, is a key of a conforming HASH_TABLE. -/
def Obligations.UnsupportedWordWidthExactly : Prop :=
  ∀ (c : Config), configWf c = true →
    (∀ (inst : InstanceId) (req : Vec c.idxW),
      statusBits (respond (tableOf c inst) req) = 0b01#2 ↔
        ∃ wordWidth, decode req = .legal (.derive wordWidth) ∧
          lookupTable (tableOf c inst) (BitVec.ofNat 16 wordWidth) = none) ∧
    (∀ (inst : InstanceId) (req : Vec c.idxW),
      statusBits (respond (tableOf c inst) req) = 0b01#2 → respond (tableOf c inst) req = 1) ∧
    (∀ wordWidth : WordWidth,
      lookupTable (tableOf c .native) wordWidth = none ↔ wordWidth.toNat ∉ [8, 16, 32, 64, 128]) ∧
    (∀ wordWidth : WordWidth, (∀ k : Nat, wordWidth.toNat ≠ 2 ^ k) → lookupTable (tableOf c .hash) wordWidth = none)

/-- 40_derive.md R45: DERIVE of a key completes, at every latency: the selected copy, and only it, goes through one cycle whose
answer is OK with the table's shift and mask = 2^shift − 1. -/
def Obligations.ExecDeriveSupported : Prop :=
  ∀ (s : State) (wordWidth : Nat) (shift : Shift),
    configWf s.cfg = true → s.NoForbidden → wordWidth < 2 ^ 16 →
    lookupTable (tableOf s.cfg s.sel) (BitVec.ofNat 16 wordWidth) = some shift →
    exec (.derive wordWidth) s =
      .next (s.setBlock s.sel
        (clockBlock s.sel (requestPort (packFields ⟨0b00#2, BitVec.ofNat 16 wordWidth, 0, 0⟩))
          (packFields ⟨0b00#2, shift.setWidth 16, BitVec.ofNat s.cfg.idxW (2 ^ shift.toNat - 1), 0⟩) (s.block s.sel)))

/-- 40_derive.md R45, R48: DERIVE of a width that is no key completes too, with status 01 and no data. -/
def Obligations.ExecDeriveUnsupported : Prop :=
  ∀ (s : State) (wordWidth : Nat),
    s.NoForbidden → wordWidth < 2 ^ 16 →
    lookupTable (tableOf s.cfg s.sel) (BitVec.ofNat 16 wordWidth) = none →
    exec (.derive wordWidth) s =
      .next (s.setBlock s.sel
        (clockBlock s.sel (requestPort (packFields ⟨0b00#2, BitVec.ofNat 16 wordWidth, 0, 0⟩))
          (packFields ⟨0b01#2, 0, 0, 0⟩) (s.block s.sel)))

/-! ### RESOLVE -/

/-- 41_resolve.md R52, R53, R54: what a copy answers to a request with op = 01, for every content of A, B and C: with A[15:8] = 0
the floor of bit_index / 2^shift and the AND with the mask, for every shift from 0 to 255, and 0 from a shift of IDX_W on;
the corner cases and the examples that R52 and R54 list. -/
def Obligations.ResolveRequestAnswer : Prop :=
  (∀ (idxW : Nat) (table : Table) (a : BitVec 16) (mask bitIndex : BitVec idxW),
    (respond table (packFields ⟨0b01#2, a, mask, bitIndex⟩) =
      if a.extractLsb' 8 8 ≠ 0 then packFields ⟨0b10#2, 0, 0, 0⟩
      else packFields ⟨0b00#2, 0, bitIndex &&& mask, bitIndex >>> (a.extractLsb' 0 8).toNat⟩) ∧
    (bitIndex >>> (a.extractLsb' 0 8).toNat).toNat = bitIndex.toNat / 2 ^ (a.extractLsb' 0 8).toNat ∧
    (idxW ≤ (a.extractLsb' 0 8).toNat → bitIndex >>> (a.extractLsb' 0 8).toNat = 0)) ∧
  (∀ (idxW : Nat) (table : Table) (shift : Shift) (mask bitIndex : BitVec idxW),
    resolvedWordIndex table shift mask 0 = 0 ∧ resolvedBitOffset table shift mask 0 = 0 ∧
    resolvedWordIndex table 0 0 bitIndex = bitIndex ∧ resolvedBitOffset table shift 0 bitIndex = 0) ∧
  (∀ c : Config, configWf c = true →
    ∀ (inst : InstanceId) (shift : Shift) (mask : BitVec c.idxW), Derived (tableOf c inst) shift mask →
      (resolvedWordIndex (tableOf c inst) shift mask (ones c.idxW)).toNat = 2 ^ (c.idxW - shift.toNat) - 1 ∧
      (resolvedBitOffset (tableOf c inst) shift mask (ones c.idxW)).toNat = 2 ^ shift.toNat - 1) ∧
  encode 64 (.resolve 6 63 130) = 0x20800000000000000FC0019 ∧
  (respond nativeTable 0x20800000000000000FC0019 : Vec 64) = 0x800000000000000080000 ∧
  resolvedWordIndex nativeTable 6 (7 : BitVec 64) 61 = 0 ∧ resolvedBitOffset nativeTable 6 (7 : BitVec 64) 61 = 5

/-- 41_resolve.md R52, R53, R54: RESOLVE completes for every shift, mask and bit index that fit their fields, at every latency:
the selected copy, and only it, goes through one cycle whose answer is OK with the floor of bit_index / 2^shift and the AND. -/
def Obligations.ExecResolveCompletes : Prop :=
  ∀ (s : State) (shift mask bitIndex : Nat),
    s.NoForbidden → shift < 2 ^ 8 → mask < 2 ^ s.cfg.idxW → bitIndex < 2 ^ s.cfg.idxW →
    exec (.resolve shift mask bitIndex) s =
      .next (s.setBlock s.sel
        (clockBlock s.sel
          (requestPort (packFields
            ⟨0b01#2, BitVec.ofNat 16 shift, BitVec.ofNat s.cfg.idxW mask, BitVec.ofNat s.cfg.idxW bitIndex⟩))
          (packFields
            ⟨0b00#2, 0, BitVec.ofNat s.cfg.idxW (bitIndex &&& mask), BitVec.ofNat s.cfg.idxW (bitIndex / 2 ^ shift)⟩)
          (s.block s.sel)))

/-- 60_exceptions.md R64: a legal RESOLVE request gets status 00, whatever its operands, and the same answer from every TABLE. -/
def Obligations.ResolveRaisesNoError : Prop :=
  ∀ (idxW : Nat) (table table' : Table) (req : Vec idxW) (shift mask bitIndex : Nat),
    decode req = .legal (.resolve shift mask bitIndex) →
    statusBits (respond table req) = 0b00#2 ∧ respond table req = respond table' req

/-- 20_memory.md R28: for every operand, neither result exceeds the bit index. -/
def Obligations.ResolveCannotOverflow : Prop :=
  ∀ (idxW : Nat) (table : Table) (shift : Shift) (mask bitIndex : BitVec idxW),
    (resolvedWordIndex table shift mask bitIndex).toNat ≤ bitIndex.toNat ∧
    (resolvedBitOffset table shift mask bitIndex).toNat ≤ bitIndex.toNat

/-- 41_resolve.md R55: with a bit index below 2^IDX_W the results are those of the unbounded shift and AND; a larger bit index is
no request, and the model refuses it by name (log 9). -/
def Obligations.ResultsMatchUnboundedIndex : Prop :=
  ∀ (idxW : Nat) (table : Table) (shift mask bitIndex : Nat), shift < 2 ^ 8 → mask < 2 ^ idxW →
    (bitIndex < 2 ^ idxW →
      (unpackFields (respond table (encode idxW (.resolve shift mask bitIndex)))).c.toNat = bitIndex >>> shift ∧
      (unpackFields (respond table (encode idxW (.resolve shift mask bitIndex)))).b.toNat = bitIndex &&& mask) ∧
    (2 ^ idxW ≤ bitIndex → ∀ s : State, s.cfg.idxW = idxW →
      exec (.resolve shift mask bitIndex) s = .refused .operandDoesNotFit)

/-- 41_resolve.md R56: for a derived pair with period P, word_index · P + bit_offset = bit_index; for NATIVE P is the word
width. -/
def Obligations.ResolveRoundTrip : Prop :=
  ∀ (c : Config), configWf c = true →
    (∀ (inst : InstanceId) (shift : Shift) (mask bitIndex : BitVec c.idxW), Derived (tableOf c inst) shift mask →
      (resolvedWordIndex (tableOf c inst) shift mask bitIndex).toNat * period shift +
        (resolvedBitOffset (tableOf c inst) shift mask bitIndex).toNat = bitIndex.toNat) ∧
    (∀ (wordWidth : WordWidth) (shift : Shift) (mask bitIndex : BitVec c.idxW),
      deriveResponse (tableOf c .native) wordWidth = okDerive shift mask →
      (resolvedWordIndex (tableOf c .native) shift mask bitIndex).toNat * wordWidth.toNat +
        (resolvedBitOffset (tableOf c .native) shift mask bitIndex).toNat = bitIndex.toNat)

/-- 41_resolve.md R57, 10_state.md R21: for a derived pair, bit_offset < P and word_index < 2^(IDX_W − s); for NATIVE
bit_offset is below the word width, and for the HASH pair (4, 15) it takes exactly the values 0 to 15. -/
def Obligations.ResolveResultRanges : Prop :=
  ∀ (c : Config), configWf c = true →
    (∀ (inst : InstanceId) (shift : Shift) (mask bitIndex : BitVec c.idxW), Derived (tableOf c inst) shift mask →
      (resolvedBitOffset (tableOf c inst) shift mask bitIndex).toNat < period shift ∧
      (resolvedWordIndex (tableOf c inst) shift mask bitIndex).toNat ≤ 2 ^ (c.idxW - shift.toNat) - 1) ∧
    (∀ (wordWidth : WordWidth) (shift : Shift) (mask bitIndex : BitVec c.idxW),
      deriveResponse (tableOf c .native) wordWidth = okDerive shift mask →
      (resolvedBitOffset (tableOf c .native) shift mask bitIndex).toNat < wordWidth.toNat) ∧
    (∀ k : Nat, k < 16 ↔
      ∃ bitIndex, (resolvedBitOffset (tableOf c .hash) 4 (BitVec.ofNat c.idxW 15) bitIndex).toNat = k)

/-- 41_resolve.md R58: for a derived pair, a step of one period adds 1 to word_index and keeps bit_offset; word_index never
decreases and leaves no gap. -/
def Obligations.ResolveMonotonic : Prop :=
  ∀ (c : Config), configWf c = true →
    ∀ (inst : InstanceId) (shift : Shift) (mask : BitVec c.idxW), Derived (tableOf c inst) shift mask →
      (∀ k : Nat, k + period shift ≤ 2 ^ c.idxW - 1 →
        (resolvedWordIndex (tableOf c inst) shift mask (BitVec.ofNat c.idxW (k + period shift))).toNat =
          (resolvedWordIndex (tableOf c inst) shift mask (BitVec.ofNat c.idxW k)).toNat + 1 ∧
        resolvedBitOffset (tableOf c inst) shift mask (BitVec.ofNat c.idxW (k + period shift)) =
          resolvedBitOffset (tableOf c inst) shift mask (BitVec.ofNat c.idxW k)) ∧
      (∀ i j : BitVec c.idxW, i.toNat ≤ j.toNat →
        (resolvedWordIndex (tableOf c inst) shift mask i).toNat ≤ (resolvedWordIndex (tableOf c inst) shift mask j).toNat) ∧
      (∀ n : Nat, n ≤ (resolvedWordIndex (tableOf c inst) shift mask (BitVec.allOnes c.idxW)).toNat →
        ∃ i : BitVec c.idxW, (resolvedWordIndex (tableOf c inst) shift mask i).toNat = n)

/-- 41_resolve.md R59: for a derived pair, word_index = bit_index div P and bit_offset = bit_index mod P; for NATIVE, P is the
word width. -/
def Obligations.ResolveIsDivMod : Prop :=
  ∀ (c : Config), configWf c = true →
    (∀ (inst : InstanceId) (shift : Shift) (mask bitIndex : BitVec c.idxW), Derived (tableOf c inst) shift mask →
      (resolvedWordIndex (tableOf c inst) shift mask bitIndex).toNat = bitIndex.toNat / period shift ∧
      (resolvedBitOffset (tableOf c inst) shift mask bitIndex).toNat = bitIndex.toNat % period shift) ∧
    (∀ (wordWidth : WordWidth) (shift : Shift) (mask bitIndex : BitVec c.idxW),
      deriveResponse (tableOf c .native) wordWidth = okDerive shift mask →
      (resolvedWordIndex (tableOf c .native) shift mask bitIndex).toNat = bitIndex.toNat / wordWidth.toNat ∧
      (resolvedBitOffset (tableOf c .native) shift mask bitIndex).toNat = bitIndex.toNat % wordWidth.toNat)

/-- 20_memory.md R24: global bit b of the sequence a host's array holds, in words of P bits, is the bit at the resolved address;
setting it there sets bit b of the sequence and no other. Both uses ask the bounds check first, and a word index past the end
is refused (70_reset_and_hazards.md R77, 93_implementation_defined.md I15). -/
def Obligations.ResolvedAddressLocatesBit : Prop :=
  ∀ (c : Config), configWf c = true →
    ∀ (inst : InstanceId) (shift : Shift) (mask bitIndex : BitVec c.idxW), Derived (tableOf c inst) shift mask →
    ∀ array : List Nat, (∀ word ∈ array, word < 2 ^ period shift) →
      let wordIndex := (resolvedWordIndex (tableOf c inst) shift mask bitIndex).toNat
      let bitOffset := (resolvedBitOffset (tableOf c inst) shift mask bitIndex).toNat
      (inBounds array wordIndex = true →
        hostTestBit array wordIndex bitOffset = some ((bitSequence (period shift) array).testBit bitIndex.toNat) ∧
        ∃ array', hostSetBit array wordIndex bitOffset = some array' ∧ array'.length = array.length ∧
          ∀ b : Nat, (bitSequence (period shift) array').testBit b =
            ((bitSequence (period shift) array).testBit b || decide (b = bitIndex.toNat))) ∧
      (inBounds array wordIndex = false →
        hostTestBit array wordIndex bitOffset = none ∧ hostSetBit array wordIndex bitOffset = none)

/-! ### Statuses and responses -/

/-- 60_exceptions.md R65, 30_encoding.md R42: each request gets exactly one status: 10 on the encoding alone, else 01 for a DERIVE
of no key, else 00; never 11. -/
def Obligations.OneStatusInPriorityOrder : Prop :=
  ∀ (idxW : Nat) (table : Table) (req : Vec idxW),
    (statusBits (respond table req) =
      match decode req with
      | .illegal _ => 0b10#2
      | .legal (.derive wordWidth) => if lookupTable table (BitVec.ofNat 16 wordWidth) = none then 0b01#2 else 0b00#2
      | .legal (.resolve _ _ _) => 0b00#2) ∧
    statusBits (respond table req) ≠ 0b11#2

/-- 30_encoding.md R41: the response table: an OK DERIVE has bits [17:10] and C zero, an OK RESOLVE has A zero, and an error
response is its status code alone. -/
def Obligations.ResponseTable : Prop :=
  ∀ (idxW : Nat) (table : Table) (req : Vec idxW),
    (statusBits (respond table req) ≠ 0b00#2 → (respond table req).toNat = (statusBits (respond table req)).toNat) ∧
    (∀ wordWidth, decode req = .legal (.derive wordWidth) → statusBits (respond table req) = 0b00#2 →
      ∃ shift, lookupTable table (BitVec.ofNat 16 wordWidth) = some shift ∧
        (respond table req).extractLsb' 2 8 = shift ∧ (respond table req).extractLsb' 10 8 = 0 ∧
        (respond table req).extractLsb' 18 idxW = maskOfShift idxW shift ∧
        (respond table req).extractLsb' (idxW + 18) idxW = 0) ∧
    (∀ shift mask bitIndex, decode req = .legal (.resolve shift mask bitIndex) →
      (respond table req).extractLsb' 2 8 = 0 ∧ (respond table req).extractLsb' 10 8 = 0 ∧
      ((respond table req).extractLsb' 18 idxW).toNat = bitIndex &&& mask ∧
      ((respond table req).extractLsb' (idxW + 18) idxW).toNat = bitIndex >>> shift)

/-! ### Configurations -/

/-- 00_scope.md R8: what a well-formed TABLE is; NATIVE_TABLE is one for every conforming IDX_W; and an ill-formed HASH_TABLE is
refused at elaboration. A configuration conforms exactly if IDX_W is in the range of R5, HASH_TABLE is well-formed, and it maps
8 to 4 (R7); one that does not is refused, and every other gives its reset state. Three clauses are the model's choice (log 16):
that no width is listed twice, which is R6's partial map as a list; that a configuration is refused for its IDX_W or for a missing
8 ↦ 4 too, where R5 and R7 give only the range and the entry; and that elaboration answers State.init, whose empty schedule and
records are those of logs 5 and 6. -/
def Obligations.TableWellFormedness : Prop :=
  (∀ (idxW : Nat) (table : Table), tableWf idxW table = true ↔
    (table.map Prod.fst).Nodup ∧
    ∀ wordWidth shift, (wordWidth, some shift) ∈ table → (∃ k : Nat, wordWidth.toNat = 2 ^ k) ∧ shift.toNat ≤ idxW) ∧
  (∀ idxW : Nat, 8 ≤ idxW → idxW ≤ 255 → tableWf idxW nativeTable = true) ∧
  (∀ c : Config, tableWf c.idxW c.hashTable = false → elaborate c = .refused .illFormedConfig) ∧
  (∀ c : Config, configWf c = true ↔
    8 ≤ c.idxW ∧ c.idxW ≤ 255 ∧ tableWf c.idxW c.hashTable = true ∧ lookupTable c.hashTable 8 = some 4) ∧
  (∀ c : Config, configWf c = true → elaborate c = .next (State.init c)) ∧
  (∀ c : Config, configWf c = false → elaborate c = .refused .illFormedConfig)

/-- 10_state.md section 4, 70_reset_and_hazards.md R71, R72: right after reset each copy of a conforming configuration has L
stages, none of them valid, and the invariant holds. -/
def Obligations.InitialStateGood : Prop :=
  ∀ c : Config, configWf c = true →
    (State.init c).Inv ∧
    ∀ inst : InstanceId, ((State.init c).block inst).stages.length = c.respLatency ∧
      ∀ st ∈ ((State.init c).block inst).stages, st.valid = false

/-- 00_scope.md R5 to R9: the reset state, at the default parameters and with HASH_TABLE left open, satisfies the invariant,
whatever the open entries are (log 3). -/
def Obligations.ResetStateGood : Prop :=
  State.reset.Inv ∧ State.reset.cfg.idxW = 64 ∧ State.reset.cfg.respLatency = 0

/-! ### The machine -/

/-- 30_encoding.md R32, R39: when the host presents a request that decodes to an instruction, valid and out of reset, the step is
exec of that instruction, on the copy whose port the host drives, with the schedule moved on. The schedule is the model's choice
(log 5). -/
def Obligations.StepRunsDecodedInstruction : Prop :=
  ∀ (s : State) (cycle : HostCycle s.cfg.idxW) (rest : List (HostCycle s.cfg.idxW)) (i : Instr),
    s.inputs = cycle :: rest → cycle.port.reqValid = true → cycle.port.rst = false → decode cycle.port.req = .legal i →
    step s = exec i (s.advance cycle rest)

/-- 10_state.md R22, 30_encoding.md R32: every presented cycle, with a request legal or illegal or with none, in reset or out of
it, passes the response function's answer to what is on `req` through the copy whose port the host drives. -/
def Obligations.StepIsOneCycleOfOneCopy : Prop :=
  ∀ (s : State) (cycle : HostCycle s.cfg.idxW) (rest : List (HostCycle s.cfg.idxW)),
    s.inputs = cycle :: rest →
    step s = presentCycle (s.advance cycle rest) cycle.port (respond (tableOf s.cfg cycle.inst) cycle.port.req)

/-- 10_state.md R22, 30_encoding.md R32: a cycle out of reset. With L = 0 rsp_valid = req_valid and rsp = exec(req). With L > 0 the
outputs are v_L and p_L, stage 1 takes req_valid and exec(req), and stage k + 1 takes stage k; all else but the schedule
stays. -/
def Obligations.CycleShiftsPipeline : Prop :=
  ∀ (s : State) (cycle : HostCycle s.cfg.idxW) (rest : List (HostCycle s.cfg.idxW)),
    s.Inv → s.inputs = cycle :: rest → cycle.port.rst = false →
    ∃ (b : Block s.cfg.idxW) (out : Option (Vec s.cfg.idxW)),
      step s = .next ((s.advance cycle rest).setBlock cycle.inst b) ∧
      b.trace = ⟨cycle.port, out⟩ :: (s.block cycle.inst).trace ∧
      (s.cfg.respLatency = 0 → b.stages = [] ∧
        out = if cycle.port.reqValid then some (respond (tableOf s.cfg cycle.inst) cycle.port.req) else none) ∧
      (∀ L, s.cfg.respLatency = L + 1 → b.stages.length = L + 1 ∧
        out = ((s.block cycle.inst).stages[L]?).bind stageHeld ∧
        b.stages[0]? = some ⟨cycle.port.reqValid, respond (tableOf s.cfg cycle.inst) cycle.port.req⟩ ∧
        ∀ k, k < L → b.stages[k + 1]? = (s.block cycle.inst).stages[k]?)

/-- 30_encoding.md R32: with L = 0 the block is combinational: a request that fits is answered in its own cycle, DERIVE as R45
says and RESOLVE as R52 says, and nothing is stored. -/
def Obligations.CombinationalAnswerInSameCycle : Prop :=
  ∀ (s : State) (i : Instr), s.Inv → s.cfg.respLatency = 0 → WellFormed s.cfg.idxW i = true →
    ∃ t : State, exec i s = .next t ∧ (t.block s.sel).stages = [] ∧
      responseValue t s.sel =
        some (match i with
          | .derive wordWidth =>
            match lookupTable (tableOf s.cfg s.sel) (BitVec.ofNat 16 wordWidth) with
            | none => 1
            | some shift => shift.toNat * 2 ^ 2 + (2 ^ shift.toNat - 1) * 2 ^ 18
          | .resolve shift mask bitIndex => (bitIndex &&& mask) * 2 ^ 18 + bitIndex / 2 ^ shift * 2 ^ (s.cfg.idxW + 18))

/-- 70_reset_and_hazards.md R71: a rising edge with rst = 1 leaves no valid stage in that copy, and touches neither the other copy
nor the configuration; the outputs of the cycle it ends are those before the edge. -/
def Obligations.ResetEdgeClearsValidBits : Prop :=
  ∀ (s : State) (cycle : HostCycle s.cfg.idxW) (rest : List (HostCycle s.cfg.idxW)) (L : Nat),
    s.Inv → s.inputs = cycle :: rest → s.cfg.respLatency = L + 1 → cycle.port.rst = true →
    ∃ b : Block s.cfg.idxW,
      step s = .next ((s.advance cycle rest).setBlock cycle.inst b) ∧
      b.stages.length = L + 1 ∧ (∀ st ∈ b.stages, st.valid = false) ∧
      b.trace = ⟨cycle.port, ((s.block cycle.inst).stages[L]?).bind stageHeld⟩ :: (s.block cycle.inst).trace

/-- The machine's invariant is kept by every step, from every state that meets it (10_state.md R22, 70_reset_and_hazards.md
R71). -/
def Obligations.StepKeepsInv : Prop :=
  ∀ s t : State, s.Inv → step s = .next t → t.Inv

/-- 30_encoding.md R32: the block accepts a request in every cycle and never stalls: from a good state no run of any length meets
a fault or a refusal, and the run stays good. -/
def Obligations.RunsNeverStop : Prop :=
  ∀ (n : Nat) (s : State), s.Inv → ∃ t : State, Sys2Proof.core.run n s = .next t ∧ t.Inv ∧ t.cfg = s.cfg

/-- 10_state.md R22, 70_reset_and_hazards.md R71, R79: in a good state every output ever recorded is settled by the request
presented exactly L cycles before: the response to it if it was valid and no reset edge came from then on, and else no
response. -/
def Obligations.AnsweredExactlyLatencyLater : Prop :=
  ∀ (s : State) (inst : InstanceId) (k : Nat) (e : CycleRecord s.cfg.idxW),
    s.Inv → (s.block inst).trace[k]? = some e →
    (∀ q, (s.block inst).trace[k + s.cfg.respLatency]? = some q →
      (∀ j q', k < j → j ≤ k + s.cfg.respLatency → (s.block inst).trace[j]? = some q' → q'.port.rst = false) →
      e.rsp = if q.port.reqValid then some (respond (tableOf s.cfg inst) q.port.req) else none) ∧
    (∀ j q', k < j → j ≤ k + s.cfg.respLatency → (s.block inst).trace[j]? = some q' → q'.port.rst = true →
      e.rsp = none) ∧
    ((s.block inst).trace[k + s.cfg.respLatency]? = none → e.rsp = none)

/-- 70_reset_and_hazards.md R79, 10_state.md R22: a valid request presented now, with L more cycles of that copy after it and no
reset, is answered in the last of them, whatever those cycles carry. -/
def Obligations.RequestAnsweredAfterLatencyCycles : Prop :=
  ∀ (c : Config) (native hash : Block c.idxW) (inst : InstanceId) (port : PortIn c.idxW) (later : List (PortIn c.idxW))
    (rest : List (HostCycle c.idxW)) (sel : InstanceId),
    State.Inv ⟨c, native, hash, (port :: later).map (fun p => ⟨inst, p⟩) ++ rest, sel⟩ →
    later.length = c.respLatency → port.reqValid = true → (∀ p ∈ port :: later, p.rst = false) →
    ∃ t : State,
      Sys2Proof.core.run (c.respLatency + 1)
        (⟨c, native, hash, (port :: later).map (fun p => ⟨inst, p⟩) ++ rest, sel⟩ : State) = .next t ∧
      responseValue t inst = some (respond (tableOf c inst) port.req).toNat

/-- 10_state.md R13, 20_memory.md R29, R30, 40_derive.md R49, 60_exceptions.md R66, 70_reset_and_hazards.md R73: the same request
to the same instance gets the same response wherever it is answered: in any two runs, whatever came before, errors and resets
among them. -/
def Obligations.ResponseIgnoresHistory : Prop :=
  ∀ (c : Config) (inst : InstanceId) (b b' : Block c.idxW),
    blockOk (tableOf c inst) c.respLatency b → blockOk (tableOf c inst) c.respLatency b' →
    ∀ (k k' : Nat) (e e' : CycleRecord c.idxW) (req rsp rsp' : Vec c.idxW),
      b.trace[k]? = some e → b'.trace[k']? = some e' →
      answeredRequest c.respLatency (b.trace.drop k) = some req →
      answeredRequest c.respLatency (b'.trace.drop k') = some req →
      e.rsp = some rsp → e'.rsp = some rsp' → rsp = rsp'

/-- 10_state.md R19: what HASH holds never shows in NATIVE: after a step from two states that differ only in the HASH copy, NATIVE
is the same; and a cycle presented to HASH leaves NATIVE as it was. The same with the two names exchanged. -/
def Obligations.CopiesDoNotInterfere : Prop :=
  ∀ (c : Config) (own other other' : Block c.idxW) (inputs : List (HostCycle c.idxW)) (sel : InstanceId) (t t' : State),
    (step ⟨c, own, other, inputs, sel⟩ = .next t → step ⟨c, own, other', inputs, sel⟩ = .next t' →
      ∃ own₁ other₁ other₁' inputs₁ sel₁,
        t = ⟨c, own₁, other₁, inputs₁, sel₁⟩ ∧ t' = ⟨c, own₁, other₁', inputs₁, sel₁⟩) ∧
    (step ⟨c, other, own, inputs, sel⟩ = .next t → step ⟨c, other', own, inputs, sel⟩ = .next t' →
      ∃ own₁ other₁ other₁' inputs₁ sel₁,
        t = ⟨c, other₁, own₁, inputs₁, sel₁⟩ ∧ t' = ⟨c, other₁', own₁, inputs₁, sel₁⟩) ∧
    (∀ (p : PortIn c.idxW) (rest : List (HostCycle c.idxW)), inputs = ⟨.hash, p⟩ :: rest →
      step ⟨c, own, other, inputs, sel⟩ = .next t → ∃ other₁, t = ⟨c, own, other₁, rest, .hash⟩) ∧
    (∀ (p : PortIn c.idxW) (rest : List (HostCycle c.idxW)), inputs = ⟨.native, p⟩ :: rest →
      step ⟨c, other, own, inputs, sel⟩ = .next t → ∃ other₁, t = ⟨c, other₁, own, rest, .native⟩)

/-- 10_state.md R19, 20_memory.md R30: over a whole run a copy depends on its own cycles alone: two good states whose NATIVE copy
is the same, and whose schedules present the same cycles to it, in whatever mixture with cycles of HASH, end with the same NATIVE
copy and record, whatever HASH holds and is presented. The same with the two names exchanged. -/
def Obligations.CopyDependsOnItsOwnCyclesOnly : Prop :=
  ∀ (c : Config) (own other other' : Block c.idxW) (inputs inputs' : List (HostCycle c.idxW)) (sel sel' : InstanceId),
    (State.Inv ⟨c, own, other, inputs, sel⟩ → State.Inv ⟨c, own, other', inputs', sel'⟩ →
      inputs.filter (fun cycle => cycle.inst == .native) = inputs'.filter (fun cycle => cycle.inst == .native) →
      ∃ own₁ other₁ other₁' sel₁ sel₁',
        Sys2Proof.core.run inputs.length (⟨c, own, other, inputs, sel⟩ : State) =
          .next (⟨c, own₁, other₁, [], sel₁⟩ : State) ∧
        Sys2Proof.core.run inputs'.length (⟨c, own, other', inputs', sel'⟩ : State) =
          .next (⟨c, own₁, other₁', [], sel₁'⟩ : State)) ∧
    (State.Inv ⟨c, other, own, inputs, sel⟩ → State.Inv ⟨c, other', own, inputs', sel'⟩ →
      inputs.filter (fun cycle => cycle.inst == .hash) = inputs'.filter (fun cycle => cycle.inst == .hash) →
      ∃ own₁ other₁ other₁' sel₁ sel₁',
        Sys2Proof.core.run inputs.length (⟨c, other, own, inputs, sel⟩ : State) =
          .next (⟨c, other₁, own₁, [], sel₁⟩ : State) ∧
        Sys2Proof.core.run inputs'.length (⟨c, other', own, inputs', sel'⟩ : State) =
          .next (⟨c, other₁', own₁, [], sel₁'⟩ : State))

/-- 20_memory.md R30: two cycles on different copies leave the same copies in either order. -/
def Obligations.CopiesCommute : Prop :=
  ∀ (c : Config) (native hash : Block c.idxW) (p q : PortIn c.idxW) (rest : List (HostCycle c.idxW)) (sel : InstanceId),
    (State.Inv ⟨c, native, hash, ⟨.native, p⟩ :: ⟨.hash, q⟩ :: rest, sel⟩) →
    ∃ native' hash' : Block c.idxW,
      Sys2Proof.core.run 2 (⟨c, native, hash, ⟨.native, p⟩ :: ⟨.hash, q⟩ :: rest, sel⟩ : State) =
        .next (⟨c, native', hash', rest, .hash⟩ : State) ∧
      Sys2Proof.core.run 2 (⟨c, native, hash, ⟨.hash, q⟩ :: ⟨.native, p⟩ :: rest, sel⟩ : State) =
        .next (⟨c, native', hash', rest, .native⟩ : State)

/-- 10_state.md R13 to R15, R19, 41_resolve.md R60: the frame of DERIVE and of RESOLVE: a next state differs only in the selected
copy, which keeps its number of stages and whose record grows by this one cycle; configuration, other copy, schedule and
selection are as before. -/
def Obligations.ExecFrame : Prop :=
  ∀ (i : Instr) (s t : State), exec i s = .next t →
    ∃ (b : Block s.cfg.idxW) (out : Option (Vec s.cfg.idxW)),
      t = s.setBlock s.sel b ∧ t.cfg = s.cfg ∧ b.stages.length = (s.block s.sel).stages.length ∧
      b.trace = ⟨requestPort (encode s.cfg.idxW i), out⟩ :: (s.block s.sel).trace ∧
      (∀ k, b.stages[k + 1]? = none ∨ b.stages[k + 1]? = (s.block s.sel).stages[k]?)

/-- 30_encoding.md R43, 93_implementation_defined.md I12, I16: an operand that does not fit its field is refused, and nothing
else is. -/
def Obligations.UnfitOperandRefusedExactly : Prop :=
  ∀ (i : Instr) (s : State),
    (WellFormed s.cfg.idxW i = false → exec i s = .refused .operandDoesNotFit) ∧
    (∀ r, exec i s = .refused r → r = .operandDoesNotFit ∧ WellFormed s.cfg.idxW i = false) ∧
    (∀ r, step s ≠ .refused r)

/-- 30_encoding.md R42: status 11 on the outputs is the one fault: a presented cycle faults exactly when a valid last stage of the
copy it clocks holds that status; with no stage it never does. -/
def Obligations.ForbiddenStatusFaultsExactly : Prop :=
  ∀ (s : State) (cycle : HostCycle s.cfg.idxW) (rest : List (HostCycle s.cfg.idxW)), s.inputs = cycle :: rest →
    ((∃ r, step s = .fault r) ↔
      ∃ st, (s.block cycle.inst).stages.getLast? = some st ∧ st.valid = true ∧ statusBits st.payload = 0b11#2)

/-- 20_memory.md R25: bytes in either order give the vector back, and no step depends on HOST_BYTE_ORDER. That there are two
orders and that the last byte is padded with zeros is the model's choice (log 4). -/
def Obligations.ByteOrderIrrelevant : Prop :=
  (∀ (idxW : Nat) (order : ByteOrder) (v : Vec idxW), fromHostBytes order (toHostBytes order v) = v) ∧
  (∀ (s : State) (order : ByteOrder),
    step (s.withByteOrder order) =
      match step s with
      | .next t => .next (t.withByteOrder order)
      | .fault r => .fault r
      | .refused r => .refused r)

/-! ### Text -/

/-- 30_encoding.md R44: what the disassembler prints, and that assembling a printed DERIVE or RESOLVE gives the request back bit
for bit. The spaces and the upper-case digits are the model's choice (log 8). -/
def Obligations.DisassemblyRoundTrip : Prop :=
  ∀ (idxW : Nat) (req : Vec idxW),
    (∀ i, decode req = .legal i →
      assemble idxW (disassemble req) = some (none, i) ∧ encode idxW i = req) ∧
    (∀ w, decode req = .legal (.derive w) →
      disassemble req = deriveFront ++ decimalText w ++ [')']) ∧
    (∀ s m i, decode req = .legal (.resolve s m i) →
      disassemble req =
        resolveFront ++ hexText i ++ [',', ' '] ++ decimalText s ++ [',', ' '] ++ hexText m ++ [')']) ∧
    (∀ why, decode req = .illegal why → disassemble req = illegalFront ++ hexText req.toNat)

/-- 30_encoding.md R43: a decimal and a hexadecimal literal have their value; a call is assembled exactly when every literal fits
its field, with each literal in either form; and a prefix names the instance and changes nothing else. That digits are read in
both cases and that spaces may follow a comma is the model's choice (log 8). -/
def Obligations.AssemblerChecksRanges : Prop :=
  (∀ n : Nat, literalOf (decimalText n) = some n ∧ literalOf (hexText n) = some n ∧
    literalOf ((hexText n).map Char.toLower) = some n) ∧
  (∀ (idxW : Nat) (front : List Char) (inst : Option InstanceId),
    (front, inst) ∈ [([], none), (nativeFront, some .native), (hashFront, some .hash)] →
    (∀ (w : Nat) (wText : List Char), literalOf wText = some w →
      assemble idxW (front ++ (deriveFront ++ wText ++ [')'])) =
        if WellFormed idxW (.derive w) then some (inst, .derive w) else none) ∧
    (∀ (i s m gap gap' : Nat) (iText sText mText : List Char),
      literalOf iText = some i → literalOf sText = some s → literalOf mText = some m →
      assemble idxW (front ++ (resolveFront ++ iText ++ [','] ++ List.replicate gap ' ' ++ sText ++ [','] ++
          List.replicate gap' ' ' ++ mText ++ [')'])) =
        if WellFormed idxW (.resolve s m i) then some (inst, .resolve s m i) else none)) ∧
  (∀ (idxW : Nat) (text : List Char) (inst : Option InstanceId) (i : Instr),
    assemble idxW text = some (inst, i) → WellFormed idxW i = true)

/-- 30_encoding.md R43: how the answer to each request is written, for every TABLE that is well-formed. That a result is printed
in decimal is the model's choice (log 8). -/
def Obligations.ResultTextOfEveryAnswer : Prop :=
  ∀ (idxW : Nat) (table : Table) (req : Vec idxW), tableWf idxW table = true →
    resultText (decode req) (respond table req) = some (match decode req with
      | .illegal _ => illegalText
      | .legal (.derive wordWidth) =>
        match lookupTable table (BitVec.ofNat 16 wordWidth) with
        | none => unsupportedText
        | some shift =>
          okFront ++ decimalText shift.toNat ++ [',', ' '] ++ decimalText (2 ^ shift.toNat - 1) ++ [')']
      | .legal (.resolve shift mask bitIndex) =>
        okFront ++ decimalText (bitIndex / 2 ^ shift) ++ [',', ' '] ++ decimalText (bitIndex &&& mask) ++ [')'])

/-! ### The host -/

/-- 70_reset_and_hazards.md R74 to R76, 41_resolve.md R56 to R59: if the host kept its duties on a copy, every RESOLVE that copy has
answered satisfies the laws, at every latency and whatever resets came between. How the duties are read is log 15's. -/
def Obligations.HostDisciplineGivesLaws : Prop :=
  ∀ (s : State) (inst : InstanceId),
    s.Inv → hostObeys s.cfg.respLatency (s.block inst).trace = true →
    ∀ (k : Nat) (e : CycleRecord s.cfg.idxW) (req rsp : Vec s.cfg.idxW) (shift mask bitIndex : Nat),
      (s.block inst).trace[k]? = some e → e.rsp = some rsp →
      answeredRequest s.cfg.respLatency ((s.block inst).trace.drop k) = some req →
      decode req = .legal (.resolve shift mask bitIndex) →
      (unpackFields rsp).code = 0b00#2 ∧
      (unpackFields rsp).c.toNat * 2 ^ shift + (unpackFields rsp).b.toNat = bitIndex ∧
      (unpackFields rsp).b.toNat < 2 ^ shift ∧
      (unpackFields rsp).c.toNat = bitIndex / 2 ^ shift ∧ (unpackFields rsp).b.toNat = bitIndex % 2 ^ shift
end

