-- ==== Sys2Proof/Laws/Encoding.lean ====
section
/-!
SUPPORT. Laws/Encoding.lean: packing the fields of a vector and reading them back (30_encoding.md R34, R41).
-/

namespace Sys2Proof

variable {idxW : Nat}

@[simp] theorem unpackFields_packFields (f : Fields idxW) : unpackFields (packFields f) = f := by
  obtain ⟨code, a, b, c⟩ := f
  simp only [unpackFields, packFields, Fields.mk.injEq]
  refine ⟨?_, ?_, ?_, ?_⟩ <;>
  · apply BitVec.eq_of_getLsbD_eq
    intro k hk
    simp only [BitVec.getLsbD_extractLsb', BitVec.getLsbD_append, hk, decide_true, Bool.true_and]
    grind

@[simp] theorem packFields_unpackFields (v : Vec idxW) : packFields (unpackFields v) = v := by
  apply BitVec.eq_of_getLsbD_eq
  intro k hk
  simp only [unpackFields, packFields, BitVec.getLsbD_extractLsb', BitVec.getLsbD_append]
  grind

/-- Two vectors with the same fields are the same vector. -/
theorem packFields_injective {f g : Fields idxW} (h : packFields f = packFields g) : f = g := by
  rw [← unpackFields_packFields f, h, unpackFields_packFields]

/-- The decoder sees the fields it was given. -/
@[simp] theorem decode_packFields (f : Fields idxW) : decode (packFields f) = decodeFields f := by
  rw [decode, unpackFields_packFields]

end Sys2Proof
end

