-- ==== Sys2Proof/Laws/Host.lean ====
section
/-!
SUPPORT. Laws/Host.lean: for each operation of the host's side in Safety.lean, once, all it can say.
-/

namespace Sys2Proof.Machine

variable {idxW : Nat}

/-! ### What a record shows -/

theorem resolvePair_of_resolve {port : PortIn idxW} {shift mask bitIndex : Nat} (hvalid : port.reqValid = true)
    (hdecode : decode port.req = .legal (.resolve shift mask bitIndex)) :
    resolvePair port = some (shiftOperand shift, indexOperand idxW mask) := by
  simp [resolvePair, hvalid, hdecode]

/-- An output that answers a DERIVE is the OK response to a DERIVE request presented L cycles before. -/
theorem answersDerive_cons {latency : Nat} {shift : Shift} {mask : BitVec idxW} {e : CycleRecord idxW}
    {older : List (CycleRecord idxW)} (h : answersDerive latency shift mask (e :: older) = true) :
    ∃ req wordWidth, answeredRequest latency (e :: older) = some req ∧ decode req = .legal (.derive wordWidth) ∧
      e.rsp = some (okDerive shift mask) := by
  unfold answersDerive at h
  cases hreq : answeredRequest latency (e :: older) with
  | none => simp [hreq] at h
  | some req =>
    cases hdecode : decode req with
    | illegal why => simp [hreq, hdecode] at h
    | legal i =>
      cases i with
      | derive wordWidth => exact ⟨req, wordWidth, rfl, hdecode, by simpa [hreq, hdecode] using h⟩
      | resolve shift' mask' bitIndex => simp [hreq, hdecode] at h

/-- A pair received in a record was answered in one of its cycles. -/
theorem receivedPair_iff {latency : Nat} {shift : Shift} {mask : BitVec idxW} {cycles : List (CycleRecord idxW)} :
    receivedPair latency shift mask cycles = true ↔ ∃ k, answersDerive latency shift mask (cycles.drop k) = true := by
  induction cycles with
  | nil => simp [receivedPair, answersDerive]
  | cons e older ih =>
    rw [receivedPair, Bool.or_eq_true, ih]
    constructor
    · rintro (h | ⟨k, h⟩)
      · exact ⟨0, h⟩
      · exact ⟨k + 1, h⟩
    · rintro ⟨_ | k, h⟩
      · exact .inl h
      · exact .inr ⟨k, h⟩

/-- The record at the first RESOLVE is the record, less its newest cycles. -/
theorem untilFirstResolve_suffix (cycles : List (CycleRecord idxW)) : untilFirstResolve cycles <:+ cycles := by
  induction cycles with
  | nil => exact List.suffix_refl _
  | cons e older ih =>
    rw [untilFirstResolve]
    split
    · split
      · exact List.suffix_refl _
      · exact List.nil_suffix
    · exact ih.trans (List.suffix_cons e older)

/-- It is empty exactly if no RESOLVE was presented. -/
theorem untilFirstResolve_eq_nil {cycles : List (CycleRecord idxW)} :
    untilFirstResolve cycles = [] ↔ ∀ e ∈ cycles, resolvePair e.port = none := by
  induction cycles with
  | nil => simp [untilFirstResolve]
  | cons e older ih =>
    rw [untilFirstResolve]
    split
    · rename_i h
      simpa using fun _ => ih.1 h
    · rename_i h
      exact ⟨fun h' => absurd h' (by simpa using h), fun h' => (h (ih.2 fun x hx => h' x (List.mem_cons_of_mem _ hx))).elim⟩

/-- The duty, for each RESOLVE of the record. -/
theorem hostObeys_iff {latency : Nat} {cycles : List (CycleRecord idxW)} :
    hostObeys latency cycles = true ↔
      ∀ e ∈ cycles, ∀ shift mask, resolvePair e.port = some (shift, mask) →
        receivedPair latency shift mask (untilFirstResolve cycles) = true := by
  rw [hostObeys, List.all_eq_true]
  refine forall₂_congr fun e _ => ?_
  cases hpair : resolvePair e.port with
  | none => simp
  | some pair =>
    constructor
    · rintro h shift mask heq
      cases heq
      exact h
    · exact fun h => h pair.1 pair.2 rfl

/-! ### The host's array -/

theorem hostTestBit_of_inBounds {array : List Nat} {wordIndex : Nat} (bitOffset : Nat) (h : inBounds array wordIndex = true) :
    hostTestBit array wordIndex bitOffset = some ((array.getD wordIndex 0).testBit bitOffset) := by
  rw [hostTestBit, if_pos h]

theorem hostSetBit_of_inBounds {array : List Nat} {wordIndex : Nat} (bitOffset : Nat) (h : inBounds array wordIndex = true) :
    hostSetBit array wordIndex bitOffset =
      some (array.set wordIndex (array.getD wordIndex 0 ||| 1 <<< bitOffset)) := by
  rw [hostSetBit, if_pos h]

end Sys2Proof.Machine
end

