-- ==== Sys2Proof/Laws/State.lean ====
section
/-!
SUPPORT. Laws/State.lean: what a replaced copy leaves alone, one lemma per field and update.
-/

namespace Sys2Proof.Machine

variable (s : State) (inst : InstanceId)

@[simp] theorem State.block_native : s.block .native = s.native := rfl
@[simp] theorem State.block_hash : s.block .hash = s.hash := rfl

@[simp] theorem State.setBlock_cfg (b : Block s.cfg.idxW) : (s.setBlock inst b).cfg = s.cfg := rfl
@[simp] theorem State.setBlock_inputs (b : Block s.cfg.idxW) : (s.setBlock inst b).inputs = s.inputs := rfl
@[simp] theorem State.setBlock_sel (b : Block s.cfg.idxW) : (s.setBlock inst b).sel = s.sel := rfl
@[simp] theorem State.setBlock_native_native (b : Block s.cfg.idxW) : (s.setBlock .native b).native = b := rfl
@[simp] theorem State.setBlock_native_hash (b : Block s.cfg.idxW) : (s.setBlock .native b).hash = s.hash := rfl
@[simp] theorem State.setBlock_hash_native (b : Block s.cfg.idxW) : (s.setBlock .hash b).native = s.native := rfl
@[simp] theorem State.setBlock_hash_hash (b : Block s.cfg.idxW) : (s.setBlock .hash b).hash = b := rfl

@[simp] theorem State.block_setBlock_same (b : Block s.cfg.idxW) : (s.setBlock inst b).block inst = b := by
  cases inst <;> rfl

theorem State.block_setBlock_other (b : Block s.cfg.idxW) {other : InstanceId} (h : other ≠ inst) :
    (s.setBlock inst b).block other = s.block other := by
  cases inst <;> cases other <;> first | rfl | exact absurd rfl h

/-- A replaced copy is found again under its name, and the other copy is as it was. -/
theorem State.block_setBlock (b : Block s.cfg.idxW) (other : InstanceId) :
    (s.setBlock inst b).block other = if other = inst then b else s.block other := by
  cases inst <;> cases other <;> rfl

@[simp] theorem State.setBlock_setBlock (b b' : Block s.cfg.idxW) :
    (s.setBlock inst b).setBlock inst b' = s.setBlock inst b' := by
  cases inst <;> rfl

variable (c : Config)

@[simp] theorem State.init_cfg : (State.init c).cfg = c := rfl
@[simp] theorem State.init_inputs : (State.init c).inputs = [] := rfl
@[simp] theorem State.init_sel : (State.init c).sel = .native := rfl
@[simp] theorem State.init_block : (State.init c).block inst = resetBlock c inst := by cases inst <;> rfl
@[simp] theorem State.reset_cfg : State.reset.cfg = defaultConfig := rfl

end Sys2Proof.Machine
end

