-- ==== Sys2Proof/Laws/Ops.lean ====
section
/-!
SUPPORT. Laws/Ops.lean: for each shared operation, once, all it can do.
-/

namespace Sys2Proof.Machine

variable {idxW : Nat}

/-! ### Responses -/

@[simp] theorem unpackFields_raiseStatus (e : Status) :
    unpackFields (raiseStatus e : Vec idxW) = ⟨statusCode e, 0, 0, 0⟩ := by simp [raiseStatus]

@[simp] theorem unpackFields_okDerive (shift : Shift) (mask : BitVec idxW) :
    unpackFields (okDerive shift mask) = ⟨statusCode .ok, shift.setWidth 16, mask, 0⟩ := by simp [okDerive]

@[simp] theorem unpackFields_okResolve (wordIndex bitOffset : BitVec idxW) :
    unpackFields (okResolve wordIndex bitOffset) = ⟨statusCode .ok, 0, bitOffset, wordIndex⟩ := by simp [okResolve]

@[simp] theorem statusBits_raiseStatus (e : Status) : statusBits (raiseStatus e : Vec idxW) = statusCode e := by
  simp [statusBits]

@[simp] theorem statusBits_okDerive (shift : Shift) (mask : BitVec idxW) :
    statusBits (okDerive shift mask) = statusCode .ok := by simp [statusBits]

@[simp] theorem statusBits_okResolve (wordIndex bitOffset : BitVec idxW) :
    statusBits (okResolve wordIndex bitOffset) = statusCode .ok := by simp [statusBits]

/-- Every status has a code of its own, and none has the forbidden one. -/
theorem statusCode_ne_forbidden (e : Status) : statusCode e ≠ forbiddenCode := by cases e <;> decide

@[simp] theorem statusOf_statusCode (e : Status) : statusOf (statusCode e) = some e := by cases e <;> decide

/-! ### TABLE lookup -/

/-- What a lookup finds is an entry of the table. -/
theorem mem_of_lookupTable {table : Table} {width : WordWidth} {shift : Shift}
    (h : lookupTable table width = some shift) : (width, some shift) ∈ table := by
  induction table with
  | nil => simp [lookupTable] at h
  | cons entry rest ih =>
    obtain ⟨key, value⟩ := entry
    rw [lookupTable] at h
    split at h
    · subst_vars; exact List.mem_cons_self
    · exact List.mem_cons_of_mem _ (ih h)

/-- In a table that lists no width twice, a lookup finds every entry. -/
theorem lookupTable_of_mem {table : Table} (hnodup : (table.map Prod.fst).Nodup) {width : WordWidth}
    {value : Option Shift} (h : (width, value) ∈ table) : lookupTable table width = value := by
  induction table with
  | nil => simp at h
  | cons entry rest ih =>
    obtain ⟨key, v⟩ := entry
    simp only [List.map_cons, List.nodup_cons] at hnodup
    rw [lookupTable]
    rcases List.mem_cons.1 h with heq | hrest
    · obtain ⟨rfl, rfl⟩ := Prod.mk.inj heq; simp
    · have : key ≠ width := fun hk => hnodup.1 (hk ▸ List.mem_map_of_mem (f := Prod.fst) hrest)
      simp [this, ih hnodup.2 hrest]

/-- What a well-formed table maps meets 00_scope.md R8. -/
theorem lookupTable_wf {table : Table} (hwf : tableWf idxW table = true) {width : WordWidth} {shift : Shift}
    (h : lookupTable table width = some shift) : isPowerOfTwo width = true ∧ shift.toNat ≤ idxW := by
  simp only [tableWf, Bool.and_eq_true, List.all_eq_true] at hwf
  simpa [entryWf] using hwf.1 _ (mem_of_lookupTable h)

/-! ### The mask -/

/-- The two shifts of 40_derive.md R45 leave exactly the low bits set. -/
theorem getLsbD_maskOfShift (shift : Shift) (h : shift.toNat ≤ idxW) (k : Nat) :
    (maskOfShift idxW shift).getLsbD k = decide (k < shift.toNat) := by
  simp only [maskOfShift, ones, BitVec.getLsbD_ushiftRight, BitVec.getLsbD_shiftLeft, BitVec.getLsbD_allOnes]
  grind

/-! ### One cycle of a copy -/

/-- A cycle of the selected copy faults with the forbidden status on its outputs, or replaces that copy and nothing else. -/
theorem presentCycle_eq (s : State) (port : PortIn s.cfg.idxW) (answer : Vec s.cfg.idxW) :
    presentCycle s port answer =
      if showsForbidden (blockOut (s.block s.sel).stages port answer) then .fault .forbiddenStatus
      else .next (s.setBlock s.sel (clockBlock s.sel port answer (s.block s.sel))) := rfl

/-- If a cycle answers a next state, this is the state. -/
theorem presentCycle_next {s t : State} {port : PortIn s.cfg.idxW} {answer : Vec s.cfg.idxW}
    (h : presentCycle s port answer = .next t) :
    t = s.setBlock s.sel (clockBlock s.sel port answer (s.block s.sel)) := by
  rw [presentCycle] at h
  split at h
  · cases h
  · exact (Host.Outcome.next.inj h).symm

@[simp] theorem clockBlock_trace (inst : InstanceId) (port : PortIn idxW) (answer : Vec idxW) (b : Block idxW) :
    (clockBlock inst port answer b).trace = ⟨port, blockOut b.stages port answer⟩ :: b.trace := rfl

/-- A copy keeps its number of stages (10_state.md R22). -/
@[simp] theorem length_clockBlock_stages (inst : InstanceId) (port : PortIn idxW) (answer : Vec idxW) (b : Block idxW) :
    (clockBlock inst port answer b).stages.length = b.stages.length := by
  simp only [clockBlock]
  split <;> simp [clearStages, shiftStages]

/-- A copy with no stage is combinational (30_encoding.md R32): its cycle only leaves a record. -/
theorem clockBlock_combinational (inst : InstanceId) (port : PortIn idxW) (answer : Vec idxW) {b : Block idxW}
    (h : b.stages = []) :
    clockBlock inst port answer b =
      ⟨[], ⟨port, if port.reqValid then some answer else none⟩ :: b.trace⟩ := by
  simp [clockBlock, blockOut, shiftStages, clearStages, h]

/-- After a reset edge no stage is valid (70_reset_and_hazards.md R71). -/
theorem clearStages_not_valid (inst : InstanceId) (cycle : Nat) (stages : List (Stage idxW)) :
    ∀ st ∈ clearStages inst cycle stages, st.valid = false := by
  intro st hst
  obtain ⟨k, -, rfl⟩ := List.mem_map.1 hst
  rfl

/-! ### The step -/

@[simp] theorem step_of_no_cycle {s : State} (h : s.inputs = []) : step s = .next s := by
  simp [step, h]

end Sys2Proof.Machine
end

