-- ==== Sys2Proof/Laws/PerInstr.lean ====
section
/-!
SUPPORT. Laws/PerInstr.lean: statements over all instructions, one lemma per constructor of Instr.
-/

namespace Sys2Proof.Laws

/-- The operation code of an instruction (30_encoding.md R35). -/
def opCodeOf : Instr → BitVec 2
  | .derive _ => 0b00#2
  | .resolve _ _ _ => 0b01#2

/-- The reserved bits of an instruction's request (30_encoding.md R36: B and C of DERIVE; R37: A[15:8] of RESOLVE). -/
def reservedBitsZero {idxW : Nat} (f : Fields idxW) : Instr → Prop
  | .derive _ => f.b = 0 ∧ f.c = 0
  | .resolve _ _ _ => f.a.extractLsb' 8 8 = 0

/-- The encoder writes the instruction's operation code and leaves its reserved bits zero (30_encoding.md R35 to R37), at
every index width and for operands that fit or not. -/
def EncodingShape.Statement (i : Instr) : Prop :=
  ∀ idxW : Nat, (unpackFields (encode idxW i)).code = opCodeOf i ∧ reservedBitsZero (unpackFields (encode idxW i)) i

theorem EncodingShape.derive (wordWidth : Nat) : EncodingShape.Statement (.derive wordWidth) := by
  intro idxW
  simp [encode, encodeFields, opCodeOf, opDerive, reservedBitsZero]

theorem EncodingShape.resolve (shift mask bitIndex : Nat) : EncodingShape.Statement (.resolve shift mask bitIndex) := by
  intro idxW
  refine ⟨by simp [encode, encodeFields, opCodeOf, opResolve], ?_⟩
  simp only [encode, encodeFields, unpackFields_packFields, reservedBitsZero]
  apply BitVec.eq_of_getLsbD_eq
  intro k hk
  simp [BitVec.getLsbD_extractLsb', BitVec.getLsbD_setWidth]

end Sys2Proof.Laws
end

