-- ==== Sys2Proof/Laws/Run.lean ====
section
/-!
SUPPORT. Laws/Run.lean: a run of the machine, one step at a time.
-/

namespace Sys2Proof.Machine

theorem run_zero (s : State) : Sys2Proof.core.run 0 s = .next s := rfl

theorem run_succ_of_next {n : Nat} {s t : State} (h : step s = .next t) :
    Sys2Proof.core.run (n + 1) s = Sys2Proof.core.run n t := by
  have hrun := Host.Core.run.eq_2 Sys2Proof.core s n
  have hstep : Sys2Proof.core.step s = .next t := h
  rw [hstep] at hrun
  exact hrun

end Sys2Proof.Machine
end

