-- ==== Sys2Proof/Tests/Slice0.lean ====
section
/-!
SUPPORT. Tests/Slice0.lean: tests whose expected values are spec/95_test_vectors.md's or are worked out by hand from the rule a
test names; and for every statement that has hypotheses, a concrete state and operands that meet them (`witness_…`).
-/

namespace Sys2Proof.Tests

open Sys2Proof.Machine

/-! ### Small configurations and states -/

/-- IDX_W = 8 and a HASH_TABLE of two keys. -/
def smallConfig (latency : Nat) : Config where
  idxW := 8
  respLatency := latency
  hashTable := [(8, some 4), (256, some 5)]
  hostByteOrder := .leastFirst

/-- A machine of `smallConfig`, right after reset, to which the host presents these cycles. -/
def smallState (latency : Nat) (inputs : List (HostCycle 8)) : State := { State.init (smallConfig latency) with inputs := inputs }

/-- The last response of a copy after a step, as one number. -/
def shown (inst : InstanceId) : Host.Outcome State Fault Refusal → Option Nat
  | .next t => responseValue t inst
  | _ => none

/-! ### WellFormed and the configuration check refuse each ill-formed term -/

theorem test_wellFormed_accepts_largest :
    WellFormed 8 (.derive 65535) = true ∧ WellFormed 8 (.resolve 255 255 255) = true := by decide
theorem test_wellFormed_refuses_wide_word_width : WellFormed 8 (.derive 65536) = false := by decide
theorem test_wellFormed_refuses_wide_shift : WellFormed 8 (.resolve 256 255 255) = false := by decide
theorem test_wellFormed_refuses_wide_mask : WellFormed 8 (.resolve 255 256 255) = false := by decide
theorem test_wellFormed_refuses_wide_bit_index : WellFormed 8 (.resolve 255 255 256) = false := by decide
theorem test_config_accepts : configWf (smallConfig 2) = true := by decide
theorem test_config_refuses_narrow_index : configWf { smallConfig 0 with idxW := 7 } = false := by decide
theorem test_config_refuses_wide_index : configWf { smallConfig 0 with idxW := 256 } = false := by decide
theorem test_config_refuses_key_not_power_of_two :
    configWf { smallConfig 0 with hashTable := [(8, some 4), (17, some 4)] } = false := by decide
theorem test_config_refuses_key_zero :
    configWf { smallConfig 0 with hashTable := [(8, some 4), (0, some 4)] } = false := by decide
theorem test_config_refuses_shift_above_index_width :
    configWf { smallConfig 0 with hashTable := [(8, some 4), (16, some 9)] } = false := by decide
theorem test_config_refuses_key_listed_twice :
    configWf { smallConfig 0 with hashTable := [(8, some 4), (8, some 3)] } = false := by decide
theorem test_config_refuses_missing_width_eight :
    configWf { smallConfig 0 with hashTable := [(16, some 4)] } = false := by decide

/-! ### Decoding, from words written out from 30_encoding.md R34 to R38 -/

/-- Vector D4: op = 00, A = 64 = 0x40, so 0x40·2^2 = 0x100. -/
theorem test_decode_derive_64 : decodeTableWord 152 0x100 = some (.derive 64) := by decide

/-- Vector V25: op = 01, A = 6 (0x18), B = 63 (0xFC0000), C = 130 (130·2^82). -/
theorem test_decode_resolve_130 : decodeTableWord 152 (1 + 6 * 2 ^ 2 + 63 * 2 ^ 18 + 130 * 2 ^ 82) = some (.resolve 6 63 130) := by
  decide

/-- Vector X9: RESOLVE with A[15:8] = 0xFF. -/
theorem test_decode_illegal : decodeTableWord 152 0x20800000000000000FFFC19 = none := by decide

/-- A word with a bit at REQ_W = 146 is no request (R33). -/
theorem test_decode_too_long : decodeTableWord 152 (2 ^ 146) = none := by decide

/-- Vector W2, at IDX_W = 8: `native.resolve(130, 3, 7)` is 0x2081C000D. -/
theorem test_encode_narrow : encode 8 (.resolve 3 7 130) = 0x2081C000D := by decide

/-- Vector V43 at IDX_W = 64. -/
theorem test_encode_wide :
    encode 64 (.resolve 63 0x7FFFFFFFFFFFFFFF 0xFFFFFFFFFFFFFFFF) = 0x3FFFFFFFFFFFFFFFDFFFFFFFFFFFFFFFC00FD := by decide

/-! ### One step from reset -/

/-- Vector D4. -/
theorem test_step_derive : shown .native (step (State.reset.withFetchWord 152 0x100)) = some 0xFC0018 := by decide
/-- Vector D11. -/
theorem test_step_derive_unsupported : shown .native (step (State.reset.withFetchWord 152 0x44)) = some 0x1 := by decide
/-- Vector V25. -/
theorem test_step_resolve :
    shown .native (step (State.reset.withFetchWord 152 0x20800000000000000FC0019)) = some 0x800000000000000080000 := by decide
/-- Vector V44: shift = IDX_W. -/
theorem test_step_resolve_full_shift :
    shown .native (step (State.reset.withFetchWord 152 0x37AB6FBBFFFFFFFFFFFFFFFFC0101)) = some 0x37AB6FBBC0000 := by decide
/-- Vector X7: DERIVE of 17 with C = 1 is illegal, not unsupported (60_exceptions.md R65). -/
theorem test_step_illegal_first :
    shown .native (step (State.reset.withFetchWord 152 0x400000000000000000044)) = some 0x2 := by decide
/-- Vectors D15 and D17, to the HASH copy, with its table left open. -/
theorem test_step_hash :
    shown .hash (step { State.reset with inputs := [⟨.hash, requestPort 0x20⟩] }) = some 0x3C0010 ∧
      shown .hash (step { State.reset with inputs := [⟨.hash, requestPort 0x44⟩] }) = some 0x1 := by decide
/-- Vector W4 at IDX_W = 8: shift = IDX_W gives word_index 0. -/
theorem test_step_narrow : shown .native (step (smallState 0 [⟨.native, requestPort 0x2AFFC0021⟩])) = some 0x2AC0000 := by decide

/-! ### The pipeline (95_test_vectors.md section 6, at IDX_W = 8) -/

/-- The requests A = `resolve(130, 3, 7)` (vector W2), B = `derive_addressing(8)` (W1) and C = `resolve(255, 3, 7)` (W3). -/
def requestA : Vec 8 := 0x2081C000D
/-- See `requestA`. -/
def requestB : Vec 8 := 0x20
/-- See `requestA`. -/
def requestC : Vec 8 := 0x3FC1C000D

/-- The cycles of section 6: A, B, nothing, C with rst = 1, nothing. -/
def traceCycles : List (PortIn 8) :=
  [requestPort requestA, requestPort requestB, ⟨false, 0, false⟩, ⟨true, requestC, true⟩, ⟨false, 0, false⟩]

/-- NATIVE with RESP_LATENCY = 2 after a number of these cycles. -/
def tracedBlock (n : Nat) : Block 8 :=
  (traceCycles.take n).foldl (fun b port => clockBlock .native port (respond nativeTable port.req) b)
    (resetBlock (smallConfig 2) .native)

/-- The machine at that point, with `inputs` to come. -/
def tracedState (n : Nat) (inputs : List (HostCycle 8)) : State where
  cfg := smallConfig 2
  native := tracedBlock n
  hash := resetBlock (smallConfig 2) .hash
  inputs := inputs
  sel := .native

/-- Section 6's outputs, newest first: nothing in cycle 4, B in cycle 3, A in cycle 2, nothing in cycles 1 and 0. -/
theorem test_trace_outputs :
    (tracedBlock 5).trace.map CycleRecord.rsp = [none, some 0x1C000C, some 0x40080000, none, none] := by decide

/-- Section 6's valid bits after the reset edge that ends cycle 3. -/
theorem test_reset_edge_clears : (tracedBlock 4).stages.map Stage.valid = [false, false] := by decide

/-! ### Text and bytes -/

/-- Vector V25's request. -/
theorem test_disassemble : disassemble (0x20800000000000000FC0019 : Vec 64) = "resolve(0x82, 6, 0x3F)".toList := by decide
/-- Vector X3. -/
theorem test_disassemble_illegal : disassemble (0x102 : Vec 64) = ".illegal 0x102".toList := by decide
/-- Vector V38's text. -/
theorem test_assemble : assemble 64 "hash.resolve(0x82, 4, 15)".toList = some (some .hash, .resolve 4 15 130) := by decide
theorem test_assemble_refuses_wide : assemble 64 "native.derive_addressing(65536)".toList = none := by decide
/-- Vector D4's result. -/
theorem test_result_text :
    resultText (.legal (.derive 64)) (0xFC0018 : Vec 64) = some "-> OK(6, 63)".toList := by decide
/-- Vector D4's response with bit 10, C's lowest bit or (for RESOLVE) bit 2 set: not of R41's form. -/
theorem test_result_text_refuses_stray_bits :
    resultText (.legal (.derive 64)) (0xFC0418 : Vec 64) = none ∧
      resultText (.legal (.derive 64)) (0x400000000000000FC0018 : Vec 64) = none ∧
      resultText (.legal (.resolve 6 63 130)) (0x800000000000000080004 : Vec 64) = none := by decide
/-- 34 bits take five bytes; the number's most significant byte, 0x02, comes first. -/
theorem test_bytes : toHostBytes .mostFirst requestA = [0x02, 0x08, 0x1C, 0x00, 0x0D] := by decide

/-! ### The host (95_test_vectors.md program P4) -/

/-- Step 5 of P4: word 1, offset 1 of an array of four words. -/
theorem test_host_sets_bit : hostSetBit [0x8, 0x100, 0x80000000, 0x0] 1 1 = some [0x8, 0x102, 0x80000000, 0x0] := by decide
/-- 93_implementation_defined.md I15: the first word index past the end is refused. -/
theorem test_host_refuses_past_end :
    hostTestBit [0x8, 0x100, 0x80000000, 0x0] 4 0 = none ∧ hostSetBit [0x8, 0x100, 0x80000000, 0x0] 4 0 = none := by decide

/-! ### Witnesses: concrete data that meet every hypothesis of a statement -/

theorem smallConfig_wf : configWf (smallConfig 0) = true ∧ configWf (smallConfig 2) = true := by decide

theorem resetBlock_ok_zero (inst : InstanceId) :
    blockOk (tableOf (smallConfig 0) inst) 0 (resetBlock (smallConfig 0) inst) := by
  cases inst <;> exact ⟨by decide, trivial⟩

theorem resetBlock_ok_two (inst : InstanceId) :
    blockOk (tableOf (smallConfig 2) inst) 2 (resetBlock (smallConfig 2) inst) := by
  cases inst <;> exact ⟨by decide, trivial⟩

theorem tracedBlock_ok_two : blockOk nativeTable 2 (tracedBlock 2) := ⟨by decide, by decide, by decide, trivial⟩

theorem tracedBlock_ok_five : blockOk nativeTable 2 (tracedBlock 5) :=
  ⟨by decide, by decide, by decide, by decide, by decide, by decide, trivial⟩

theorem smallState_inv (inputs : List (HostCycle 8)) : (smallState 0 inputs).Inv ∧ (smallState 2 inputs).Inv := by
  refine ⟨⟨smallConfig_wf.1, fun inst => ?_⟩, ⟨smallConfig_wf.2, fun inst => ?_⟩⟩ <;> cases inst
  · exact resetBlock_ok_zero .native
  · exact resetBlock_ok_zero .hash
  · exact resetBlock_ok_two .native
  · exact resetBlock_ok_two .hash

theorem tracedState_inv_two (inputs : List (HostCycle 8)) : (tracedState 2 inputs).Inv := by
  refine ⟨smallConfig_wf.2, fun inst => ?_⟩
  cases inst
  · exact tracedBlock_ok_two
  · exact resetBlock_ok_two .hash

theorem tracedState_inv_five : (tracedState 5 []).Inv := by
  refine ⟨smallConfig_wf.2, fun inst => ?_⟩
  cases inst
  · exact tracedBlock_ok_five
  · exact resetBlock_ok_two .hash

theorem smallState_noForbidden (inputs : List (HostCycle 8)) : (smallState 0 inputs).NoForbidden := by
  intro st h; cases h

/-- With a valid last stage: request A is on the outputs. -/
theorem tracedState_noForbidden (inputs : List (HostCycle 8)) : (tracedState 2 inputs).NoForbidden := by
  intro st h
  have hne : statusBits (okResolve 16 (2 : BitVec 8)) ≠ forbiddenCode := by decide
  have : st = ⟨true, okResolve 16 2⟩ := by
    have hlast : (tracedBlock 2).stages.getLast? = some ⟨true, okResolve 16 2⟩ := by decide
    exact Option.some.inj (h.symm.trans hlast)
  subst this
  exact fun _ => hne

theorem witness_DecodeInvertsEncode :
    WellFormed 8 (.derive 65535) = true ∧ WellFormed 8 (.resolve 255 255 255) = true := by decide

theorem witness_EncodeInvertsDecode :
    decode requestA = .legal (.resolve 3 7 130) ∧ decode requestB = .legal (.derive 8) := by decide

/-- Cases (a), (b) with B, (b) with C, and (c), each by one bit. -/
theorem witness_IllegalRequestsExactly :
    decode (0x2 : Vec 8) = .illegal .reservedOp ∧ decode (0x40000 : Vec 8) = .illegal .deriveReservedNonzero ∧
      decode (0x4000000 : Vec 8) = .illegal .deriveReservedNonzero ∧
      decode (0x401 : Vec 8) = .illegal .resolveReservedNonzero := by decide

/-- A[15:8] zero and not zero; and a DERIVE whose answer is OK. -/
theorem witness_DerivedPairCopiesIntoRequest :
    (0x00FF : BitVec 16).extractLsb' 8 8 = 0 ∧ (0x0100 : BitVec 16).extractLsb' 8 8 ≠ 0 ∧ tableWf 8 nativeTable = true ∧
      decode requestB = .legal (.derive 8) ∧ statusBits (respond nativeTable requestB) = 0b00#2 := by decide

/-- A table with a key and a width that is no key; B zero and not zero; and a table with both end values, s = 0 and
s = IDX_W. -/
theorem witness_DeriveRequestAnswer :
    tableWf 8 nativeTable = true ∧ lookupTable nativeTable 8 = some 3 ∧ lookupTable nativeTable 9 = none ∧
      (1 : BitVec 8) ≠ 0 ∧ tableWf 8 [(1, some 0), (2, some 8)] = true ∧
      lookupTable [(1, some 0), (2, some 8)] 1 = some 0 ∧ lookupTable [(1, some 0), (2, some 8)] 2 = some 8 := by decide

/-- Both ends: s = 0 and s = IDX_W. -/
theorem witness_MaskIsLowShiftBits :
    (0 : Shift).toNat ≤ 8 ∧ (8 : Shift).toNat ≤ 8 ∧ maskOfShift 8 0 = 0 ∧ maskOfShift 8 8 = 0xFF := by decide

/-- The smallest and the largest entry. -/
theorem witness_NativePeriodIsWordWidth :
    configWf (smallConfig 0) = true ∧ (deriveResponse nativeTable 8 : Vec 8) = okDerive 3 7 ∧
      (deriveResponse nativeTable 128 : Vec 8) = okDerive 7 127 := by decide

theorem witness_HashWidthEightGivesFour : configWf (smallConfig 0) = true := by decide

/-- A DERIVE that gets status 01; 0 is not a power of two. -/
theorem witness_UnsupportedWordWidthExactly :
    configWf (smallConfig 0) = true ∧ statusBits (respond nativeTable (encode 8 (.derive 17))) = 0b01#2 ∧
      ∀ k : Nat, (0 : WordWidth).toNat ≠ 2 ^ k :=
  ⟨by decide, by decide, fun k => (Nat.two_pow_pos k).ne⟩

/-- NATIVE at L = 0, and at L = 2 with a response on the outputs. -/
theorem witness_ExecDeriveSupported :
    configWf (smallConfig 0) = true ∧ (smallState 0 []).NoForbidden ∧ (tracedState 2 []).NoForbidden ∧ 128 < 2 ^ 16 ∧
      lookupTable (tableOf (smallConfig 0) .native) (BitVec.ofNat 16 128) = some 7 :=
  ⟨by decide, smallState_noForbidden [], tracedState_noForbidden [], by decide, by decide⟩

theorem witness_ExecDeriveUnsupported :
    (smallState 0 []).NoForbidden ∧ 65535 < 2 ^ 16 ∧
      lookupTable (tableOf (smallConfig 0) .native) (BitVec.ofNat 16 65535) = none :=
  ⟨smallState_noForbidden [], by decide, by decide⟩

/-- A[15:8] zero and not zero; a shift at IDX_W = 8. -/
theorem witness_ResolveRequestAnswer :
    (0x00FF : BitVec 16).extractLsb' 8 8 = 0 ∧ (0x0100 : BitVec 16).extractLsb' 8 8 ≠ 0 ∧
      8 ≤ ((0x0008 : BitVec 16).extractLsb' 0 8).toNat := by decide

theorem witness_ExecResolveCompletes :
    (smallState 0 []).NoForbidden ∧ (tracedState 2 []).NoForbidden ∧ 255 < 2 ^ 8 ∧ 255 < 2 ^ (smallConfig 0).idxW :=
  ⟨smallState_noForbidden [], tracedState_noForbidden [], by decide, by decide⟩

theorem witness_ResolveRaisesNoError : decode requestC = .legal (.resolve 3 7 255) := by decide

/-- The largest bit index that fits, and the smallest that does not. -/
theorem witness_ResultsMatchUnboundedIndex :
    3 < 2 ^ 8 ∧ 7 < 2 ^ 8 ∧ 255 < 2 ^ 8 ∧ 2 ^ 8 ≤ 256 ∧ (smallState 0 []).cfg.idxW = 8 := by decide

/-- A NATIVE pair and a HASH pair whose period is not its width, for the statements about derived pairs. -/
theorem witness_derived_pairs :
    configWf (smallConfig 0) = true ∧ Derived (tableOf (smallConfig 0) .native) 3 (7 : BitVec 8) ∧
      Derived (tableOf (smallConfig 0) .hash) 4 (15 : BitVec 8) ∧
      (deriveResponse (tableOf (smallConfig 0) .native) 8 : Vec 8) = okDerive 3 7 :=
  ⟨by decide, ⟨8, by decide⟩, ⟨8, by decide⟩, by decide⟩

/-- The last k with k + P ≤ 2^IDX_W − 1 for P = 8, the indices 7 and 8, and the last word index. -/
theorem witness_ResolveMonotonic :
    247 + period 3 ≤ 2 ^ 8 - 1 ∧ (7 : BitVec 8).toNat ≤ (8 : BitVec 8).toNat ∧
      31 ≤ (resolvedWordIndex nativeTable 3 (7 : BitVec 8) (BitVec.allOnes 8)).toNat := by decide

/-- Four words of 8 bits; the last word index in bounds, and the first one past the end. -/
theorem witness_ResolvedAddressLocatesBit :
    (∀ word ∈ [0x8, 0xFF, 0x80, 0x0], word < 2 ^ period 3) ∧
      inBounds [0x8, 0xFF, 0x80, 0x0] (resolvedWordIndex nativeTable 3 (7 : BitVec 8) 31).toNat = true ∧
      inBounds [0x8, 0xFF, 0x80, 0x0] (resolvedWordIndex nativeTable 3 (7 : BitVec 8) 32).toNat = false := by decide

/-- An error, an OK DERIVE and an OK RESOLVE. -/
theorem witness_ResponseTable :
    statusBits (respond nativeTable (0x2 : Vec 8)) ≠ 0b00#2 ∧ decode requestB = .legal (.derive 8) ∧
      statusBits (respond nativeTable requestB) = 0b00#2 ∧ decode requestA = .legal (.resolve 3 7 130) := by decide

/-- The bounds of IDX_W, a conforming configuration, one that is not, and one whose HASH_TABLE is ill-formed. -/
theorem witness_TableWellFormedness :
    8 ≤ 8 ∧ 255 ≤ 255 ∧ configWf (smallConfig 2) = true ∧ configWf { smallConfig 0 with idxW := 7 } = false ∧
      tableWf 8 [(8, some 4), (17, some 4)] = false := by decide

theorem witness_StepRunsDecodedInstruction :
    (smallState 0 [⟨.native, requestPort requestA⟩]).inputs = [⟨.native, requestPort requestA⟩] ∧
      (requestPort requestA).reqValid = true ∧ (requestPort requestA).rst = false ∧
      decode (requestPort requestA).req = .legal (.resolve 3 7 130) := by decide

/-- L = 0, and L = 2 with both stages valid. -/
theorem witness_CycleShiftsPipeline :
    (smallState 0 [⟨.hash, requestPort requestB⟩]).Inv ∧ (smallState 0 []).cfg.respLatency = 0 ∧
      (tracedState 2 [⟨.native, ⟨false, 0, false⟩⟩]).Inv ∧ (tracedState 2 []).cfg.respLatency = 1 + 1 ∧
      (⟨false, 0, false⟩ : PortIn 8).rst = false :=
  ⟨(smallState_inv _).1, rfl, tracedState_inv_two _, rfl, rfl⟩

theorem witness_CombinationalAnswerInSameCycle :
    (smallState 0 []).Inv ∧ (smallState 0 []).cfg.respLatency = 0 ∧ WellFormed 8 (.derive 8) = true ∧
      WellFormed 8 (.resolve 3 7 130) = true :=
  ⟨(smallState_inv _).1, rfl, by decide, by decide⟩

/-- A reset edge with two requests in flight and one presented. -/
theorem witness_ResetEdgeClearsValidBits :
    (tracedState 2 [⟨.native, ⟨true, requestC, true⟩⟩]).Inv ∧ (tracedState 2 []).cfg.respLatency = 1 + 1 ∧
      (⟨true, requestC, true⟩ : PortIn 8).rst = true :=
  ⟨tracedState_inv_two _, rfl, rfl⟩

/-- A good state from which a step is taken. -/
theorem witness_StepKeepsInv :
    (smallState 0 [⟨.native, requestPort requestA⟩]).Inv ∧
      shown .native (step (smallState 0 [⟨.native, requestPort requestA⟩])) = some 0x40080000 :=
  ⟨(smallState_inv _).1, by decide⟩

theorem witness_RunsNeverStop : (tracedState 2 [⟨.native, requestPort requestC⟩]).Inv := tracedState_inv_two _

/-- The records of section 6, newest first: in cycle 3 (k = 1) the answer to B of cycle 1 with no reset edge before it; in cycle 4
(k = 0) none, after the reset edge that ended cycle 3 (j = 1); in cycle 1 (k = 3) none, with no cycle before cycle 0. -/
theorem witness_AnsweredExactlyLatencyLater :
    (tracedState 5 []).Inv ∧
      (tracedBlock 5).trace[1]? = some ⟨⟨true, requestC, true⟩, some 0x1C000C⟩ ∧
      (tracedBlock 5).trace[1 + 2]? = some ⟨requestPort requestB, none⟩ ∧
      (tracedBlock 5).trace[0]? = some ⟨⟨false, 0, false⟩, none⟩ ∧
      (tracedBlock 5).trace[3]? = some ⟨requestPort requestB, none⟩ ∧ (tracedBlock 5).trace[3 + 2]? = none :=
  ⟨tracedState_inv_five, by decide, by decide, by decide, by decide, by decide⟩

/-- L = 0 with nothing after the request, and L = 2 with two cycles after it. -/
theorem witness_RequestAnsweredAfterLatencyCycles :
    (smallState 0 [⟨.native, requestPort requestA⟩]).Inv ∧ ([] : List (PortIn 8)).length = (smallConfig 0).respLatency ∧
      (smallState 2 ((requestPort requestA :: [requestPort requestB, ⟨false, 0, false⟩]).map fun p => ⟨.native, p⟩)).Inv ∧
      [requestPort requestB, ⟨false, 0, false⟩].length = (smallConfig 2).respLatency ∧
      (requestPort requestA).reqValid = true ∧
      ∀ p ∈ requestPort requestA :: [requestPort requestB, ⟨false, 0, false⟩], p.rst = false :=
  ⟨(smallState_inv _).1, rfl, (smallState_inv _).2, rfl, rfl, by decide⟩

/-- The same request answered in two runs: after request A, and as the first one. -/
def combinationalBlock (ports : List (PortIn 8)) : Block 8 :=
  ports.foldl (fun b port => clockBlock .native port (respond nativeTable port.req) b) (resetBlock (smallConfig 0) .native)

theorem witness_ResponseIgnoresHistory :
    blockOk (tableOf (smallConfig 0) .native) 0 (combinationalBlock [requestPort requestA, requestPort requestB]) ∧
      blockOk (tableOf (smallConfig 0) .native) 0 (combinationalBlock [requestPort requestB]) ∧
      (combinationalBlock [requestPort requestA, requestPort requestB]).trace[0]? =
        some ⟨requestPort requestB, some 0x1C000C⟩ ∧
      (combinationalBlock [requestPort requestB]).trace[0]? = some ⟨requestPort requestB, some 0x1C000C⟩ ∧
      answeredRequest 0 ((combinationalBlock [requestPort requestA, requestPort requestB]).trace.drop 0) = some requestB ∧
      answeredRequest 0 ((combinationalBlock [requestPort requestB]).trace.drop 0) = some requestB :=
  ⟨⟨by decide, by decide, by decide, trivial⟩, ⟨by decide, by decide, trivial⟩, by decide, by decide, by decide, by decide⟩

/-- NATIVE alike and HASH not, NATIVE clocked; and a cycle of HASH. -/
theorem witness_CopiesDoNotInterfere :
    shown .native (step (smallState 0 [⟨.native, requestPort requestA⟩])) = some 0x40080000 ∧
      shown .native (step ⟨smallConfig 0, resetBlock (smallConfig 0) .native, combinationalBlock [requestPort requestB],
        [⟨.native, requestPort requestA⟩], .native⟩) = some 0x40080000 ∧
      shown .hash (step (smallState 0 [⟨.hash, requestPort requestB⟩])) = some 0x3C0010 := by decide

/-- One NATIVE cycle, with two different HASH cycles about it and with none. -/
theorem witness_CopyDependsOnItsOwnCyclesOnly :
    (smallState 2 [⟨.hash, requestPort requestB⟩, ⟨.native, requestPort requestA⟩, ⟨.hash, ⟨false, 0, true⟩⟩]).Inv ∧
      (smallState 2 [⟨.native, requestPort requestA⟩]).Inv ∧
      [⟨.hash, requestPort requestB⟩, ⟨.native, requestPort requestA⟩, ⟨.hash, ⟨false, 0, true⟩⟩].filter
          (fun cycle : HostCycle 8 => cycle.inst == .native) =
        [⟨.native, requestPort requestA⟩].filter (fun cycle : HostCycle 8 => cycle.inst == .native) :=
  ⟨(smallState_inv _).2, (smallState_inv _).2, by decide⟩

theorem witness_CopiesCommute :
    (smallState 2 [⟨.native, requestPort requestA⟩, ⟨.hash, requestPort requestB⟩]).Inv := (smallState_inv _).2

/-- Both instructions answer a next state. -/
theorem witness_ExecFrame :
    shown .native (exec (.derive 8) (smallState 0 [])) = some 0x1C000C ∧
      shown .native (exec (.resolve 3 7 130) (smallState 0 [])) = some 0x40080000 := by decide

theorem witness_UnfitOperandRefusedExactly :
    WellFormed (smallState 0 []).cfg.idxW (.resolve 0 0 256) = false ∧
      (match exec (.resolve 0 0 256) (smallState 0 []) with
        | .refused r => r == .operandDoesNotFit
        | _ => false) = true := by decide

/-- A state that no run reaches: NATIVE's one stage is valid and holds status 11. -/
def forbiddenState : State where
  cfg := smallConfig 1
  native := ⟨[⟨true, 0x3⟩], []⟩
  hash := resetBlock (smallConfig 1) .hash
  inputs := [⟨.native, ⟨false, 0, false⟩⟩]
  sel := .native

theorem witness_ForbiddenStatusFaultsExactly :
    forbiddenState.inputs = [⟨.native, ⟨false, 0, false⟩⟩] ∧
      (match step forbiddenState with
        | .fault r => r == .forbiddenStatus
        | _ => false) = true := by decide

theorem witness_DisassemblyRoundTrip :
    decode requestB = .legal (.derive 8) ∧ decode requestA = .legal (.resolve 3 7 130) ∧
      decode (0x3 : Vec 8) = .illegal .reservedOp := by decide

/-- R52's own spelling, with decimal bit index and mask; and hexadecimal word width and shift. -/
theorem witness_AssemblerChecksRanges :
    literalOf "130".toList = some 130 ∧ literalOf "0x82".toList = some 130 ∧
      assemble 8 "resolve(130, 3, 7)".toList = some (none, .resolve 3 7 130) ∧
      assemble 8 "resolve(0x82,0x3,  0x7)".toList = some (none, .resolve 3 7 130) ∧
      assemble 8 "hash.derive_addressing(0x40)".toList = some (some .hash, .derive 64) ∧
      assemble 8 "resolve(130, 0x100, 7)".toList = none := by decide

theorem witness_ResultTextOfEveryAnswer :
    tableWf 8 nativeTable = true ∧ resultText (decode requestA) (respond nativeTable requestA) = some "-> OK(16, 2)".toList ∧
      resultText (decode (0x44 : Vec 8)) (respond nativeTable (0x44 : Vec 8)) = some "-> UNSUPPORTED_WORD_WIDTH".toList ∧
      resultText (decode (0x3 : Vec 8)) (respond nativeTable (0x3 : Vec 8)) = some "-> ILLEGAL_REQUEST".toList := by decide

/-- A host that derives width 8, receives (3, 7) and then resolves 130 with that pair. -/
theorem witness_HostDisciplineGivesLaws :
    (State.mk (smallConfig 0) (combinationalBlock [requestPort requestB, requestPort requestA])
        (resetBlock (smallConfig 0) .hash) [] .native).Inv ∧
      hostObeys 0 (combinationalBlock [requestPort requestB, requestPort requestA]).trace = true ∧
      (combinationalBlock [requestPort requestB, requestPort requestA]).trace[0]? =
        some ⟨requestPort requestA, some 0x40080000⟩ ∧
      answeredRequest 0 ((combinationalBlock [requestPort requestB, requestPort requestA]).trace.drop 0) = some requestA ∧
      decode requestA = .legal (.resolve 3 7 130) := by
  refine ⟨⟨by decide, fun inst => ?_⟩, by decide, by decide, by decide, by decide⟩
  cases inst
  · exact ⟨by decide, by decide, by decide, trivial⟩
  · exact ⟨by decide, trivial⟩

/-! ### The host's duties -/

/-- Whether a host that presents these instructions to a combinational NATIVE copy, one a cycle, keeps its duties. -/
def obeyed (program : List Instr) : Bool :=
  hostObeys 0 (combinationalBlock (program.map fun i => requestPort (encode 8 i))).trace

/-- R74: both widths derived, one of them twice, before the first RESOLVE. -/
theorem test_host_derives_first :
    obeyed [.derive 8, .derive 16, .derive 8, .resolve 3 7 130, .resolve 4 15 130] = true := by decide
/-- R74: width 16 is derived only after the first RESOLVE. -/
theorem test_host_derives_late : obeyed [.derive 8, .resolve 3 7 130, .derive 16, .resolve 4 15 130] = false := by decide
/-- R76: the shift of one derived pair with the mask of another. -/
theorem test_host_mixes_pairs : obeyed [.derive 8, .derive 16, .resolve 3 15 130] = false := by decide
/-- R75: a pair made up after UNSUPPORTED_WORD_WIDTH. -/
theorem test_host_makes_up_pair : obeyed [.derive 17, .resolve 3 7 130] = false := by decide
/-- R78, L = 2: a RESOLVE in the cycle that brings the answer, and one a cycle earlier. -/
theorem test_host_waits_for_answer :
    (hostObeys 2 [⟨requestPort requestA, some (0x1C000C : Vec 8)⟩, ⟨⟨false, 0, false⟩, none⟩, ⟨requestPort requestB, none⟩] = true) ∧
      hostObeys 2 [⟨⟨false, 0, false⟩, some (0x1C000C : Vec 8)⟩, ⟨requestPort requestA, none⟩, ⟨requestPort requestB, none⟩] =
        false := by decide

end Sys2Proof.Tests
end

/-!
The statements of 00_scope.md: well-formed tables and conforming configurations (R5 to R8), the entries
of NATIVE_TABLE (R6), and the reset state at the open parameters (R5 to R9).
-/

namespace Sys2Proof

variable {idxW : Nat}

/-! ### What makes a TABLE well-formed -/

/-- A 16-bit number that is a power of two has an exponent below 16, so the test of 00_scope.md R8(a) misses none. -/
theorem isPowerOfTwo_iff {width : WordWidth} : isPowerOfTwo width = true ↔ ∃ k : Nat, width.toNat = 2 ^ k := by
  simp only [isPowerOfTwo, List.any_eq_true, List.mem_range, beq_iff_eq]
  refine ⟨fun ⟨k, _, hk⟩ => ⟨k, hk⟩, fun ⟨k, hk⟩ => ⟨k, ?_, hk⟩⟩
  have hlt : 2 ^ k < 2 ^ 16 := hk ▸ width.isLt
  exact (Nat.pow_lt_pow_iff_right (by decide)).1 hlt

@[simp] theorem entryWf_none (width : WordWidth) : entryWf idxW (width, none) = true := rfl

@[simp] theorem entryWf_some {width : WordWidth} {shift : Shift} :
    entryWf idxW (width, some shift) = true ↔ (∃ k : Nat, width.toNat = 2 ^ k) ∧ shift.toNat ≤ idxW := by
  simp [entryWf, isPowerOfTwo_iff]

/-- 00_scope.md R8, in the terms of the spec: only the keys of the table matter. -/
theorem tableWf_iff {table : Table} :
    tableWf idxW table = true ↔
      (table.map Prod.fst).Nodup ∧
      ∀ width shift, (width, some shift) ∈ table → (∃ k : Nat, width.toNat = 2 ^ k) ∧ shift.toNat ≤ idxW := by
  rw [tableWf, Bool.and_eq_true, decide_eq_true_iff, List.all_eq_true, and_comm]
  refine and_congr_right fun _ => ⟨fun h width shift hmem => entryWf_some.1 (h _ hmem), fun h entry hmem => ?_⟩
  obtain ⟨width, _ | shift⟩ := entry
  · exact entryWf_none width
  · exact entryWf_some.2 (h width shift hmem)

theorem tableWf_nodup {table : Table} (hwf : tableWf idxW table = true) : (table.map Prod.fst).Nodup :=
  (tableWf_iff.1 hwf).1

/-- A wider index admits every table of a narrower one. -/
theorem tableWf_mono {narrow wide : Nat} (hle : narrow ≤ wide) {table : Table} (hwf : tableWf narrow table = true) :
    tableWf wide table = true := by
  obtain ⟨hnodup, hkeys⟩ := tableWf_iff.1 hwf
  exact tableWf_iff.2 ⟨hnodup, fun width shift hmem =>
    ⟨(hkeys width shift hmem).1, (hkeys width shift hmem).2.trans hle⟩⟩

end Sys2Proof

namespace Sys2Proof.Machine

variable {idxW : Nat}

/-! ### Lookup in a TABLE that lists no width twice -/

/-- There a lookup answers a shift exactly if the table lists it. -/
theorem lookupTable_eq_some_iff {table : Table} (hnodup : (table.map Prod.fst).Nodup) {width : WordWidth}
    {shift : Shift} : lookupTable table width = some shift ↔ (width, some shift) ∈ table :=
  ⟨mem_of_lookupTable, lookupTable_of_mem hnodup⟩

/-! ### NATIVE_TABLE -/

/-- The largest value of NATIVE_TABLE is 7, so 00_scope.md R8(b) holds from IDX_W = 7 on. -/
theorem tableWf_nativeTable (hidx : 7 ≤ idxW) : tableWf idxW nativeTable = true :=
  tableWf_mono hidx (by decide)

theorem lookupTable_nativeTable_iff {width : WordWidth} {shift : Shift} :
    lookupTable nativeTable width = some shift ↔ (width, some shift) ∈ nativeTable :=
  lookupTable_eq_some_iff (tableWf_nodup (tableWf_nativeTable le_rfl))

theorem mem_nativeTable_iff {width : WordWidth} {shift : Shift} :
    (width, some shift) ∈ nativeTable ↔
      (width.toNat = 8 ∧ shift.toNat = 3) ∨ (width.toNat = 16 ∧ shift.toNat = 4) ∨
      (width.toNat = 32 ∧ shift.toNat = 5) ∨ (width.toNat = 64 ∧ shift.toNat = 6) ∨
      (width.toNat = 128 ∧ shift.toNat = 7) := by
  simp [nativeTable, ← BitVec.toNat_inj]

/-! ### Conforming configurations and elaboration -/

/-- 00_scope.md R5, R7 and R8: listing 8 ↦ 4 and mapping 8 to 4 are the same in a table that lists no width twice. -/
theorem configWf_iff {c : Config} :
    configWf c = true ↔
      8 ≤ c.idxW ∧ c.idxW ≤ 255 ∧ tableWf c.idxW c.hashTable = true ∧ lookupTable c.hashTable 8 = some 4 := by
  simp only [configWf, Bool.and_eq_true, decide_eq_true_iff, and_assoc]
  refine and_congr_right fun _ => and_congr_right fun _ => and_congr_right fun hwf => ?_
  exact (lookupTable_eq_some_iff (tableWf_nodup hwf)).symm

theorem elaborate_of_wf {c : Config} (hwf : configWf c = true) : elaborate c = .next (State.init c) := by
  rw [elaborate, if_pos hwf]

theorem elaborate_of_not_wf {c : Config} (hwf : configWf c = false) : elaborate c = .refused .illFormedConfig := by
  rw [elaborate, if_neg (by simp [hwf])]

theorem configWf_of_not_tableWf {c : Config} (htable : tableWf c.idxW c.hashTable = false) : configWf c = false := by
  simp [configWf, htable]

/-! ### The open HASH_TABLE -/

/-- 00_scope.md R8(b) is what an open entry keeps of the free one. -/
theorem openHashEntry_le {width : WordWidth} {shift : Shift} (h : openHashEntry idxW width = some shift) :
    shift.toNat ≤ idxW := by
  unfold openHashEntry at h
  split at h
  · cases h
  · split at h
    · cases h; assumption
    · cases h

theorem mem_openHashTable_iff {width : WordWidth} {shift : Shift} :
    (width, some shift) ∈ openHashTable idxW ↔
      width = 8 ∧ shift = 4 ∨ width ∈ openHashWidths ∧ openHashEntry idxW width = some shift := by
  simp [openHashTable]

/-- The open HASH_TABLE lists 8 and the other powers of two, each once. -/
theorem nodup_openHashTable_widths : ((openHashTable idxW).map Prod.fst).Nodup := by
  have hwidths : (openHashTable idxW).map Prod.fst = 8 :: openHashWidths := by
    simp [openHashTable, Function.comp_def]
  rw [hwidths]
  decide

theorem isPowerOfTwo_of_mem_openHashWidths {width : WordWidth} (h : width ∈ openHashWidths) :
    isPowerOfTwo width = true :=
  List.all_eq_true.1 (by decide : openHashWidths.all isPowerOfTwo = true) width h

/-- Whatever the free entries are (log 3), the open HASH_TABLE meets 00_scope.md R8. -/
theorem tableWf_openHashTable (hidx : 4 ≤ idxW) : tableWf idxW (openHashTable idxW) = true := by
  refine tableWf_iff.2 ⟨nodup_openHashTable_widths, fun width shift hmem => ?_⟩
  obtain ⟨rfl, rfl⟩ | ⟨hwidth, hentry⟩ := mem_openHashTable_iff.1 hmem
  · exact ⟨⟨3, rfl⟩, hidx⟩
  · exact ⟨isPowerOfTwo_iff.1 (isPowerOfTwo_of_mem_openHashWidths hwidth), openHashEntry_le hentry⟩

theorem configWf_defaultConfig : configWf defaultConfig = true :=
  configWf_iff.2 ⟨by decide, by decide, tableWf_openHashTable (idxW := 64) (by decide), rfl⟩

/-! ### The state right after reset -/

/-- After no cycle at all no stage holds a response. -/
@[simp] theorem heldAfter_nil (table : Table) (k : Nat) : heldAfter table k ([] : List (CycleRecord idxW)) = none := by
  cases k <;> rfl

/-- A copy right after reset is as its empty record says: its L stages hold nothing (10_state.md section 4), whatever their
free payloads. -/
theorem blockOk_resetBlock (c : Config) (inst : InstanceId) (table : Table) :
    blockOk table c.respLatency (resetBlock c inst) := by
  refine ⟨?_, trivial⟩
  rw [resetBlock, List.map_map]
  exact List.map_congr_left fun k _ => (heldAfter_nil table k).symm

theorem State.init_inv {c : Config} (hwf : configWf c = true) : (State.init c).Inv :=
  ⟨hwf, fun inst => by rw [State.init_block]; exact blockOk_resetBlock c inst _⟩

/-! ### The statements -/

/-- Settles O27, from the characterisations of tableWf, configWf and elaborate. -/
theorem tableWellFormedness : Obligations.TableWellFormedness := by
  refine ⟨fun _ _ => tableWf_iff, fun _ hlow _ => tableWf_nativeTable (by omega), fun _ htable => ?_, fun _ => configWf_iff,
    fun _ => elaborate_of_wf, fun _ => elaborate_of_not_wf⟩
  exact elaborate_of_not_wf (configWf_of_not_tableWf htable)

/-- Settles O9: a lookup in NATIVE_TABLE answers what the table lists, which is its five entries. -/
theorem nativeTableValues : Obligations.NativeTableValues :=
  fun _ _ => lookupTable_nativeTable_iff.trans mem_nativeTable_iff

/-- Settles O29: the default configuration conforms whatever its open entries are, and every conforming configuration's reset
state satisfies the invariant. -/
theorem resetStateGood : Obligations.ResetStateGood :=
  ⟨State.init_inv configWf_defaultConfig, rfl, rfl⟩

end Sys2Proof.Machine

/-!
The state statements (10_state.md). First what one step is: the request that decodes to an instruction is that
instruction's encoding, so a step of every kind is one cycle of one copy with the response function's answer.
-/

namespace Sys2Proof

variable {idxW : Nat}

/-! ### Operands that fit -/

theorem wellFormed_derive {wordWidth : Nat} : WellFormed idxW (.derive wordWidth) = true ↔ wordWidth < 2 ^ 16 :=
  decide_eq_true_iff

theorem wellFormed_resolve {shift mask bitIndex : Nat} :
    WellFormed idxW (.resolve shift mask bitIndex) = true ↔
      shift < 2 ^ 8 ∧ mask < 2 ^ idxW ∧ bitIndex < 2 ^ idxW :=
  decide_eq_true_iff

/-! ### A legal request is the encoding of what it decodes to -/

/-- A 16-bit field A with zero reserved bits is its low byte (30_encoding.md R37). -/
theorem setWidth_low_byte {a : BitVec 16} (hreserved : a.extractLsb' 8 8 = 0) : (a.extractLsb' 0 8).setWidth 16 = a := by
  apply BitVec.eq_of_getLsbD_eq
  intro k hk
  have hhigh : ∀ j, j < 8 → a.getLsbD (8 + j) = false := fun j hj => by
    simpa [hj] using congrArg (fun v => v.getLsbD j) hreserved
  simp only [BitVec.getLsbD_setWidth, BitVec.getLsbD_extractLsb', hk, decide_true, Bool.true_and, Nat.zero_add]
  by_cases hlow : k < 8
  · simp [hlow]
  · have := hhigh (k - 8) (by omega)
    rw [Nat.add_sub_cancel' (by omega)] at this
    simp [hlow, this]

theorem decodeFields_eq_legal {f : Fields idxW} {i : Instr} (h : decodeFields f = .legal i) :
    WellFormed idxW i = true ∧ encodeFields idxW i = f := by
  obtain ⟨code, a, b, c⟩ := f
  unfold decodeFields at h
  split at h
  next hderive =>
    split at h
    next hzero =>
      obtain rfl : code = opDerive := hderive
      obtain ⟨rfl, rfl⟩ := hzero
      cases h
      exact ⟨wellFormed_derive.2 a.isLt, by simp [encodeFields]⟩
    next => cases h
  next =>
    split at h
    next hresolve =>
      split at h
      next hreserved =>
        obtain rfl : code = opResolve := hresolve
        cases h
        refine ⟨wellFormed_resolve.2 ⟨BitVec.isLt _, b.isLt, c.isLt⟩, ?_⟩
        simp only [encodeFields, BitVec.ofNat_toNat, BitVec.setWidth_eq, setWidth_low_byte hreserved]
      next => cases h
    next => cases h

/-- 30_encoding.md R39: a request that decodes to an instruction is its encoding, and the operands fit. -/
theorem decode_eq_legal {req : Vec idxW} {i : Instr} (h : decode req = .legal i) :
    WellFormed idxW i = true ∧ encode idxW i = req := by
  obtain ⟨hfit, hfields⟩ := decodeFields_eq_legal h
  exact ⟨hfit, by rw [encode, hfields, packFields_unpackFields]⟩

end Sys2Proof

namespace Sys2Proof.Machine

variable {idxW : Nat}

/-! ### What a step is -/

/-- An instruction whose operands fit is one cycle that presents its encoding; any other is refused. -/
theorem exec_eq (i : Instr) (s : State) :
    exec i s =
      if WellFormed s.cfg.idxW i then
        presentCycle s (requestPort (encode s.cfg.idxW i)) (answerInstr (tableOf s.cfg s.sel) i)
      else .refused .operandDoesNotFit := by
  cases i <;> rfl

/-- Only an instruction whose operands fit answers a next state, in which the selected copy has gone through one cycle. -/
theorem exec_next {i : Instr} {s t : State} (h : exec i s = .next t) :
    t = s.setBlock s.sel
      (clockBlock s.sel (requestPort (encode s.cfg.idxW i)) (answerInstr (tableOf s.cfg s.sel) i) (s.block s.sel)) := by
  rw [exec_eq] at h
  split at h
  · exact presentCycle_next h
  · cases h

theorem respond_of_legal {table : Table} {req : Vec idxW} {i : Instr} (h : decode req = .legal i) :
    respond table req = answerInstr table i := by
  simp [respond, h]

theorem respond_of_illegal {table : Table} {req : Vec idxW} {why : IllegalForm} (h : decode req = .illegal why) :
    respond table req = raiseStatus .illegalRequest := by
  simp [respond, h]

theorem exec_of_decode {s : State} {req : Vec s.cfg.idxW} {i : Instr} (h : decode req = .legal i) :
    exec i s = presentCycle s (requestPort req) (respond (tableOf s.cfg s.sel) req) := by
  obtain ⟨hfit, hencode⟩ := decode_eq_legal h
  rw [exec_eq, if_pos hfit, hencode, respond_of_legal h]

theorem requestPort_of_presented {port : PortIn idxW} (h : (port.reqValid && !port.rst) = true) :
    requestPort port.req = port := by
  obtain ⟨hvalid, hrst⟩ : port.reqValid = true ∧ port.rst = false := by simpa using h
  rw [requestPort, ← hvalid, ← hrst]

/-- Every presented cycle is one cycle of one copy with the response function's answer (10_state.md R22). -/
theorem step_eq_presentCycle {s : State} {cycle : HostCycle s.cfg.idxW} {rest : List (HostCycle s.cfg.idxW)}
    (hinputs : s.inputs = cycle :: rest) :
    step s = presentCycle (s.advance cycle rest) cycle.port (respond (tableOf s.cfg cycle.inst) cycle.port.req) := by
  unfold step
  rw [hinputs]
  dsimp only
  split
  next hpresented =>
    split
    next i hdecode => rw [exec_of_decode (s := s.advance cycle rest) hdecode, requestPort_of_presented hpresented]
    next why hdecode => rw [respond_of_illegal hdecode]
  next => rfl

/-- The state after a presented cycle that does not fault: the copy that was clocked, and all else but the schedule as before. -/
abbrev State.clocked (s : State) (cycle : HostCycle s.cfg.idxW) (rest : List (HostCycle s.cfg.idxW)) : State :=
  (s.advance cycle rest).setBlock cycle.inst
    (clockBlock cycle.inst cycle.port (respond (tableOf s.cfg cycle.inst) cycle.port.req) (s.block cycle.inst))

theorem block_advance (s : State) (cycle : HostCycle s.cfg.idxW) (rest : List (HostCycle s.cfg.idxW)) (inst : InstanceId) :
    (s.advance cycle rest).block inst = s.block inst := by
  cases inst <;> rfl

theorem step_next {s t : State} {cycle : HostCycle s.cfg.idxW} {rest : List (HostCycle s.cfg.idxW)}
    (hinputs : s.inputs = cycle :: rest) (h : step s = .next t) : t = s.clocked cycle rest := by
  rw [step_eq_presentCycle hinputs] at h
  have ht := presentCycle_next h
  rw [block_advance] at ht
  exact ht

/-- Settles O31: a legal request is the encoding of its instruction, so every branch of the step is the same cycle. -/
theorem stepIsOneCycleOfOneCopy : Obligations.StepIsOneCycleOfOneCopy :=
  fun _ _ _ hinputs => step_eq_presentCycle hinputs

end Sys2Proof.Machine

/-! Next, what a copy's pipeline and record say (10_state.md R22): the invariant, and what it settles about an output. -/

namespace Sys2Proof.Machine

variable {idxW : Nat}

/-! ### No response has status 11 -/

theorem statusBits_deriveResponse_ne_forbidden (table : Table) (width : WordWidth) :
    statusBits (deriveResponse table width : Vec idxW) ≠ forbiddenCode := by
  rw [deriveResponse]
  split
  · rw [statusBits_raiseStatus]; exact statusCode_ne_forbidden _
  · rw [statusBits_okDerive]; exact statusCode_ne_forbidden _

theorem statusBits_answerInstr_ne_forbidden (table : Table) (i : Instr) :
    statusBits (answerInstr table i : Vec idxW) ≠ forbiddenCode := by
  cases i with
  | derive wordWidth => exact statusBits_deriveResponse_ne_forbidden table _
  | resolve shift mask bitIndex =>
    rw [answerInstr, resolveResponse, statusBits_okResolve]
    exact statusCode_ne_forbidden _

theorem statusBits_respond_ne_forbidden (table : Table) (req : Vec idxW) :
    statusBits (respond table req) ≠ forbiddenCode := by
  rw [respond]
  split
  · exact statusBits_answerInstr_ne_forbidden table _
  · rw [statusBits_raiseStatus]; exact statusCode_ne_forbidden _

/-! ### A cycle that cannot fault -/

@[simp] theorem showsForbidden_eq_false_iff {out : Option (Vec idxW)} :
    showsForbidden out = false ↔ ∀ rsp, out = some rsp → statusBits rsp ≠ forbiddenCode := by
  cases out <;> simp [showsForbidden]

theorem blockOut_eq_some {stages : List (Stage idxW)} {port : PortIn idxW} {answer rsp : Vec idxW}
    (h : blockOut stages port answer = some rsp) :
    rsp = answer ∨ ∃ last, stages.getLast? = some last ∧ last.valid = true ∧ rsp = last.payload := by
  unfold blockOut at h
  split at h
  · exact .inl (Option.some.inj (Option.ite_none_right_eq_some.1 h).2).symm
  · next last hlast =>
    obtain ⟨hvalid, hrsp⟩ := Option.ite_none_right_eq_some.1 h
    exact .inr ⟨last, hlast, hvalid, (Option.some.inj hrsp).symm⟩

theorem presentCycle_of_noForbidden {s : State} {port : PortIn s.cfg.idxW} {answer : Vec s.cfg.idxW}
    (hout : s.NoForbidden) (hanswer : statusBits answer ≠ forbiddenCode) :
    presentCycle s port answer = .next (s.setBlock s.sel (clockBlock s.sel port answer (s.block s.sel))) := by
  have hshows : showsForbidden (blockOut (s.block s.sel).stages port answer) = false := by
    rw [showsForbidden_eq_false_iff]
    intro rsp hrsp
    obtain rfl | ⟨last, hlast, hvalid, rfl⟩ := blockOut_eq_some hrsp
    · exact hanswer
    · exact hout last hlast hvalid
  rw [presentCycle_eq, hshows]
  rfl

/-- 10_state.md R22: at every latency, an instruction whose operands fit completes. -/
theorem exec_of_noForbidden {i : Instr} {s : State} (hout : s.NoForbidden) (hfit : WellFormed s.cfg.idxW i = true) :
    exec i s = .next (s.setBlock s.sel
      (clockBlock s.sel (requestPort (encode s.cfg.idxW i)) (answerInstr (tableOf s.cfg s.sel) i) (s.block s.sel))) := by
  rw [exec_eq, if_pos hfit, presentCycle_of_noForbidden hout (statusBits_answerInstr_ne_forbidden _ i)]

/-! ### The stages, seen through what they hold -/

@[simp] theorem stageHeld_mk (valid : Bool) (payload : Vec idxW) :
    stageHeld ⟨valid, payload⟩ = if valid then some payload else none := rfl

theorem stageHeld_of_valid {st : Stage idxW} (h : st.valid = true) : stageHeld st = some st.payload := by
  simp [stageHeld, h]

/-- The outputs are what the last stage holds; with no stage, the answer to the request presented. -/
theorem blockOut_eq (stages : List (Stage idxW)) (port : PortIn idxW) (answer : Vec idxW) :
    blockOut stages port answer =
      ((stages.map stageHeld).getLast?).getD (if port.reqValid then some answer else none) := by
  rw [blockOut, List.getLast?_map]
  cases stages.getLast? <;> rfl

theorem map_stageHeld_clearStages (inst : InstanceId) (cycle : Nat) (stages : List (Stage idxW)) :
    (clearStages inst cycle stages).map stageHeld = (List.range stages.length).map fun _ => none := by
  rw [clearStages, List.map_map]
  rfl

theorem map_stageHeld_shiftStages (port : PortIn idxW) (answer : Vec idxW) (stages : List (Stage idxW)) :
    (shiftStages port answer stages).map stageHeld =
      ((if port.reqValid then some answer else none) :: stages.map stageHeld).dropLast := by
  rw [shiftStages, List.map_dropLast, List.map_cons, stageHeld_mk]

/-! ### What a record says is held -/

section HeldAfter

variable (table : Table) (k : Nat) {e : CycleRecord idxW} (older : List (CycleRecord idxW))

theorem heldAfter_cons_of_rst (h : e.port.rst = true) : heldAfter table k (e :: older) = none := by
  cases k <;> simp [heldAfter, h]

theorem heldAfter_zero_cons (h : e.port.rst = false) :
    heldAfter table 0 (e :: older) = if e.port.reqValid then some (respond table e.port.req) else none := by
  simp [heldAfter, h]

theorem heldAfter_succ_cons (h : e.port.rst = false) :
    heldAfter table (k + 1) (e :: older) = heldAfter table k older := by
  simp [heldAfter, h]

end HeldAfter

/-- What `L` stages hold after a record, stage 1 first. -/
def heldStages (table : Table) (latency : Nat) (cycles : List (CycleRecord idxW)) : List (Option (Vec idxW)) :=
  (List.range latency).map fun k => heldAfter table k cycles

theorem heldStages_cons_of_rst (table : Table) (latency : Nat) {e : CycleRecord idxW} (older : List (CycleRecord idxW))
    (h : e.port.rst = true) : heldStages table latency (e :: older) = (List.range latency).map fun _ => none :=
  List.map_congr_left fun k _ => heldAfter_cons_of_rst table k older h

/-- One cycle without reset moves the held responses on by one stage. -/
theorem heldStages_cons (table : Table) (latency : Nat) {e : CycleRecord idxW} (older : List (CycleRecord idxW))
    (h : e.port.rst = false) :
    heldStages table latency (e :: older) =
      ((if e.port.reqValid then some (respond table e.port.req) else none) :: heldStages table latency older).dropLast := by
  have hnext : heldStages table (latency + 1) (e :: older) =
      (if e.port.reqValid then some (respond table e.port.req) else none) :: heldStages table latency older := by
    rw [heldStages, List.range_succ_eq_map, List.map_cons, List.map_map, heldAfter_zero_cons table older h]
    exact congrArg _ (List.map_congr_left fun k _ => heldAfter_succ_cons table k older h)
  rw [← hnext, heldStages, heldStages, ← List.map_dropLast, List.range_succ, List.dropLast_concat]

theorem outputAfter_eq (table : Table) (latency : Nat) (port : PortIn idxW) (older : List (CycleRecord idxW)) :
    outputAfter table latency port older =
      ((heldStages table latency older).getLast?).getD (if port.reqValid then some (respond table port.req) else none) := by
  cases latency with
  | zero => rfl
  | succ k => simp [outputAfter, heldStages, List.range_succ]

/-! ### The invariant of a copy -/

theorem blockOk_iff {table : Table} {latency : Nat} {b : Block idxW} :
    blockOk table latency b ↔
      b.stages.map stageHeld = heldStages table latency b.trace ∧ traceOk table latency b.trace := Iff.rfl

theorem blockOk.length_stages {table : Table} {latency : Nat} {b : Block idxW} (h : blockOk table latency b) :
    b.stages.length = latency := by
  simpa [heldStages] using congrArg List.length (blockOk_iff.1 h).1

/-- With L = 0 a copy stores nothing (10_state.md R22). -/
theorem blockOk.stages_eq_nil {table : Table} {b : Block idxW} (h : blockOk table 0 b) : b.stages = [] :=
  List.length_eq_zero_iff.1 h.length_stages

/-- One cycle, with or without reset, keeps a copy as its record says (10_state.md R22, 70_reset_and_hazards.md R71). -/
theorem blockOk.clockBlock {table : Table} {latency : Nat} {b : Block idxW} (h : blockOk table latency b)
    (inst : InstanceId) (port : PortIn idxW) :
    blockOk table latency (clockBlock inst port (respond table port.req) b) := by
  obtain ⟨hstages, htrace⟩ := blockOk_iff.1 h
  refine blockOk_iff.2 ⟨?_, ?_, htrace⟩
  · rw [clockBlock_trace]
    cases hrst : port.rst with
    | true =>
      rw [heldStages_cons_of_rst table latency _ hrst, Machine.clockBlock, if_pos hrst, map_stageHeld_clearStages,
        h.length_stages]
    | false =>
      rw [heldStages_cons table latency _ hrst, Machine.clockBlock, if_neg (by simp [hrst]), map_stageHeld_shiftStages,
        hstages]
  · rw [blockOut_eq, hstages, outputAfter_eq]

/-! ### What a recorded output is -/

/-- Whether a reset edge ended one of these cycles. -/
def anyReset (cycles : List (CycleRecord idxW)) : Bool := cycles.any fun e => e.port.rst

@[simp] theorem anyReset_nil : anyReset ([] : List (CycleRecord idxW)) = false := rfl

@[simp] theorem anyReset_cons (e : CycleRecord idxW) (older : List (CycleRecord idxW)) :
    anyReset (e :: older) = (e.port.rst || anyReset older) := rfl

@[simp] theorem answeredRequest_nil (latency : Nat) : answeredRequest latency ([] : List (CycleRecord idxW)) = none := rfl

@[simp] theorem answeredRequest_zero_cons (e : CycleRecord idxW) (older : List (CycleRecord idxW)) :
    answeredRequest 0 (e :: older) = if e.port.reqValid then some e.port.req else none := rfl

@[simp] theorem answeredRequest_succ_cons (latency : Nat) (e : CycleRecord idxW) (older : List (CycleRecord idxW)) :
    answeredRequest (latency + 1) (e :: older) = answeredRequest latency older := rfl

theorem heldAfter_eq (table : Table) (k : Nat) (cycles : List (CycleRecord idxW)) :
    heldAfter table k cycles =
      if anyReset (cycles.take (k + 1)) then none else (answeredRequest k cycles).map (respond table) := by
  induction cycles generalizing k with
  | nil => simp
  | cons e older ih =>
    cases hrst : e.port.rst with
    | true => rw [heldAfter_cons_of_rst table k older hrst]; simp [hrst]
    | false =>
      cases k with
      | zero => rw [heldAfter_zero_cons table older hrst]; simp [hrst, apply_ite]
      | succ k => rw [heldAfter_succ_cons table k older hrst, ih]; simp [hrst]

/-- At every latency, an output answers the request of L cycles before, unless a reset edge has come since. -/
theorem outputAfter_eq_answer (table : Table) (latency : Nat) (e : CycleRecord idxW) (older : List (CycleRecord idxW)) :
    outputAfter table latency e.port older =
      if anyReset (older.take latency) then none
      else (answeredRequest latency (e :: older)).map (respond table) := by
  cases latency with
  | zero => simp [outputAfter, apply_ite]
  | succ k => rw [outputAfter, heldAfter_eq, answeredRequest_succ_cons]

theorem rsp_of_traceOk {table : Table} {latency : Nat} {cycles : List (CycleRecord idxW)}
    (h : traceOk table latency cycles) {k : Nat} {e : CycleRecord idxW} (he : cycles[k]? = some e) :
    e.rsp =
      if anyReset ((cycles.drop (k + 1)).take latency) then none
      else (answeredRequest latency (cycles.drop k)).map (respond table) := by
  induction cycles generalizing k with
  | nil => simp at he
  | cons newest older ih =>
    obtain ⟨hnewest, holder⟩ := h
    cases k with
    | zero =>
      obtain rfl := Option.some.inj he
      exact hnewest.trans (outputAfter_eq_answer table latency newest older)
    | succ k => exact ih holder he

/-- A response on the outputs is the response to the request of L cycles before. -/
theorem rsp_eq_respond {table : Table} {latency : Nat} {cycles : List (CycleRecord idxW)}
    (h : traceOk table latency cycles) {k : Nat} {e : CycleRecord idxW} {req rsp : Vec idxW}
    (he : cycles[k]? = some e) (hreq : answeredRequest latency (cycles.drop k) = some req) (hrsp : e.rsp = some rsp) :
    rsp = respond table req := by
  rw [rsp_of_traceOk h he, hreq] at hrsp
  exact (Option.some.inj (Option.ite_none_left_eq_some.1 hrsp).2).symm

/-! ### A good state does not fault -/

/-- A valid stage of a good copy holds a response, and no response has status 11. -/
theorem blockOk.statusBits_ne_forbidden {table : Table} {latency : Nat} {b : Block idxW} (h : blockOk table latency b)
    {st : Stage idxW} (hst : st ∈ b.stages) (hvalid : st.valid = true) : statusBits st.payload ≠ forbiddenCode := by
  have hheld : some st.payload ∈ heldStages table latency b.trace := by
    rw [← (blockOk_iff.1 h).1, ← stageHeld_of_valid hvalid]
    exact List.mem_map_of_mem hst
  obtain ⟨k, -, hk⟩ := List.mem_map.1 hheld
  rw [heldAfter_eq] at hk
  obtain ⟨req, -, hreq⟩ := Option.map_eq_some_iff.1 (Option.ite_none_left_eq_some.1 hk).2
  rw [← hreq]
  exact statusBits_respond_ne_forbidden table req

theorem State.Inv.block_ok {s : State} (h : s.Inv) (inst : InstanceId) :
    blockOk (tableOf s.cfg inst) s.cfg.respLatency (s.block inst) := h.2 inst

theorem State.Inv.noForbidden {s : State} (h : s.Inv) : s.NoForbidden :=
  fun _ hlast hvalid => (h.block_ok s.sel).statusBits_ne_forbidden (List.mem_of_getLast? hlast) hvalid

/-- The schedule and the selection are the host's: the invariant does not speak of them. -/
theorem State.Inv.advance {s : State} (h : s.Inv) (cycle : HostCycle s.cfg.idxW) (rest : List (HostCycle s.cfg.idxW)) :
    (s.advance cycle rest).Inv :=
  ⟨h.1, fun inst => by rw [block_advance]; exact h.block_ok inst⟩

theorem State.Inv.setBlock {s : State} (h : s.Inv) (inst : InstanceId) {b : Block s.cfg.idxW}
    (hb : blockOk (tableOf s.cfg inst) s.cfg.respLatency b) : (s.setBlock inst b).Inv := by
  refine ⟨h.1, fun other => ?_⟩
  rw [State.block_setBlock]
  split
  next heq => subst heq; exact hb
  next => exact h.block_ok other

theorem State.Inv.clocked {s : State} (h : s.Inv) (cycle : HostCycle s.cfg.idxW) (rest : List (HostCycle s.cfg.idxW)) :
    (s.clocked cycle rest).Inv :=
  (h.advance cycle rest).setBlock cycle.inst ((h.block_ok cycle.inst).clockBlock cycle.inst cycle.port)

/-- From a good state a presented cycle never faults. -/
theorem step_of_inv {s : State} (h : s.Inv) {cycle : HostCycle s.cfg.idxW} {rest : List (HostCycle s.cfg.idxW)}
    (hinputs : s.inputs = cycle :: rest) : step s = .next (s.clocked cycle rest) := by
  rw [step_eq_presentCycle hinputs, presentCycle_of_noForbidden (h.advance cycle rest).noForbidden
    (statusBits_respond_ne_forbidden _ _), block_advance]

/-- From a good state every step answers a good state of the same configuration. -/
theorem step_progress {s : State} (h : s.Inv) : ∃ t : State, step s = .next t ∧ t.Inv ∧ t.cfg = s.cfg := by
  cases hinputs : s.inputs with
  | nil => exact ⟨s, step_of_no_cycle hinputs, h, rfl⟩
  | cons cycle rest => exact ⟨s.clocked cycle rest, step_of_inv h hinputs, h.clocked cycle rest, rfl⟩

end Sys2Proof.Machine

/-! Runs: what a schedule leaves in each copy, and the statements of 10_state.md over steps and runs. -/

namespace Sys2Proof.Machine

variable {idxW : Nat}

/-! ### The copies after a schedule -/

/-- A copy after these cycles of its port, each with the response function's answer. -/
def clockAll (table : Table) (inst : InstanceId) (ports : List (PortIn idxW)) (b : Block idxW) : Block idxW :=
  ports.foldl (fun b port => clockBlock inst port (respond table port.req) b) b

@[simp] theorem clockAll_cons (table : Table) (inst : InstanceId) (port : PortIn idxW) (ports : List (PortIn idxW))
    (b : Block idxW) :
    clockAll table inst (port :: ports) b =
      clockAll table inst ports (clockBlock inst port (respond table port.req) b) := rfl

/-- What a schedule presents to one copy. -/
def portsOf (inst : InstanceId) (cycles : List (HostCycle idxW)) : List (PortIn idxW) :=
  (cycles.filter fun cycle => cycle.inst == inst).map HostCycle.port

@[simp] theorem portsOf_cons_same (inst : InstanceId) (port : PortIn idxW) (cycles : List (HostCycle idxW)) :
    portsOf inst (⟨inst, port⟩ :: cycles) = port :: portsOf inst cycles := by
  simp [portsOf]

theorem portsOf_congr {inst : InstanceId} {cycles cycles' : List (HostCycle idxW)}
    (h : cycles.filter (fun cycle => cycle.inst == inst) = cycles'.filter fun cycle => cycle.inst == inst) :
    portsOf inst cycles = portsOf inst cycles' := congrArg (List.map HostCycle.port) h

@[simp] theorem portsOf_map_same (inst : InstanceId) (ports : List (PortIn idxW)) :
    portsOf inst (ports.map fun port => ⟨inst, port⟩) = ports := by
  induction ports with
  | nil => rfl
  | cons port ports ih => rw [List.map_cons, portsOf_cons_same, ih]

/-- The machine after these cycles, when `inputs` are still to come. -/
def afterCycles (c : Config) (native hash : Block c.idxW) (cycles inputs : List (HostCycle c.idxW)) (sel : InstanceId) :
    State where
  cfg := c
  native := clockAll (tableOf c .native) .native (portsOf .native cycles) native
  hash := clockAll (tableOf c .hash) .hash (portsOf .hash cycles) hash
  inputs := inputs
  sel := sel

section AfterCycles

variable {c : Config} {native hash : Block c.idxW}

theorem block_afterCycles (cycles inputs inputs' : List (HostCycle c.idxW)) (sel sel' inst : InstanceId) :
    (afterCycles c native hash cycles inputs sel).block inst =
      clockAll (tableOf c inst) inst (portsOf inst cycles) (State.block ⟨c, native, hash, inputs', sel'⟩ inst) := by
  cases inst <;> rfl

theorem clocked_eq_afterCycles (cycle : HostCycle c.idxW) (inputs rest : List (HostCycle c.idxW)) (sel : InstanceId) :
    State.clocked ⟨c, native, hash, inputs, sel⟩ cycle rest = afterCycles c native hash [cycle] rest cycle.inst := by
  obtain ⟨_ | _, port⟩ := cycle <;> rfl

theorem afterCycles_cons (cycle : HostCycle c.idxW) (cycles inputs : List (HostCycle c.idxW)) (sel sel' : InstanceId) :
    afterCycles c native hash (cycle :: cycles) inputs sel =
      afterCycles c (afterCycles c native hash [cycle] cycles sel').native
        (afterCycles c native hash [cycle] cycles sel').hash cycles inputs sel := by
  obtain ⟨_ | _, port⟩ := cycle <;> rfl

/-- If a step answers a next state, each copy has gone through what the first cycle of the schedule presents to it. -/
theorem step_next_afterCycles {inputs : List (HostCycle c.idxW)} {sel : InstanceId} {t : State}
    (h : step ⟨c, native, hash, inputs, sel⟩ = .next t) :
    t = afterCycles c native hash (inputs.take 1) (inputs.drop 1) ((inputs.head?.map HostCycle.inst).getD sel) := by
  cases inputs with
  | nil => exact (Host.Outcome.next.inj ((step_of_no_cycle rfl).symm.trans h)).symm
  | cons cycle rest => exact (step_next rfl h).trans (clocked_eq_afterCycles cycle _ rest sel)

/-- From a good state a run through the first cycles of the schedule takes each copy through its own of them. -/
theorem run_schedule {cycles rest : List (HostCycle c.idxW)} {sel : InstanceId}
    (h : State.Inv ⟨c, native, hash, cycles ++ rest, sel⟩) :
    ∃ sel', Sys2Proof.core.run cycles.length (⟨c, native, hash, cycles ++ rest, sel⟩ : State) =
      .next (afterCycles c native hash cycles rest sel') := by
  induction cycles generalizing native hash sel with
  | nil => exact ⟨sel, rfl⟩
  | cons cycle cycles ih =>
    have hstep := step_of_inv h rfl
    have hgood := h.clocked cycle (cycles ++ rest)
    rw [clocked_eq_afterCycles] at hstep hgood
    obtain ⟨sel', hrun⟩ := ih hgood
    refine ⟨sel', ?_⟩
    rw [List.length_cons, run_succ_of_next hstep, afterCycles_cons cycle cycles rest sel' cycle.inst]
    exact hrun

/-- The run of the whole schedule. -/
theorem run_whole_schedule {inputs : List (HostCycle c.idxW)} {sel : InstanceId}
    (h : State.Inv ⟨c, native, hash, inputs, sel⟩) :
    ∃ sel', Sys2Proof.core.run inputs.length (⟨c, native, hash, inputs, sel⟩ : State) =
      .next (afterCycles c native hash inputs [] sel') := by
  have hrun := run_schedule (cycles := inputs) (rest := []) (sel := sel) (native := native) (hash := hash)
  rw [List.append_nil] at hrun
  exact hrun h

end AfterCycles

/-! ### The record after a request and L more cycles -/

theorem blockOk.clockAll {table : Table} {latency : Nat} {b : Block idxW} (h : blockOk table latency b) (inst : InstanceId)
    (ports : List (PortIn idxW)) : blockOk table latency (clockAll table inst ports b) := by
  induction ports generalizing b with
  | nil => exact h
  | cons port ports ih => exact ih (h.clockBlock inst port)

/-- The record grows by the ports presented, newest first. -/
theorem map_port_trace_clockAll (table : Table) (inst : InstanceId) (ports : List (PortIn idxW)) (b : Block idxW) :
    (clockAll table inst ports b).trace.map CycleRecord.port = ports.reverse ++ b.trace.map CycleRecord.port := by
  induction ports generalizing b with
  | nil => rfl
  | cons port ports ih => rw [clockAll_cons, ih, clockBlock_trace]; simp

theorem answeredRequest_of_getElem? {latency : Nat} {cycles : List (CycleRecord idxW)} {e : CycleRecord idxW}
    (h : cycles[latency]? = some e) :
    answeredRequest latency cycles = if e.port.reqValid then some e.port.req else none := by
  simp [answeredRequest, h]

theorem answeredRequest_of_getElem?_none {latency : Nat} {cycles : List (CycleRecord idxW)}
    (h : cycles[latency]? = none) : answeredRequest latency cycles = none := by
  simp [answeredRequest, h]

/-- The cycles after index k, up to k + L, by their indices. -/
theorem anyReset_after_iff {cycles : List (CycleRecord idxW)} {k latency : Nat} :
    anyReset ((cycles.drop (k + 1)).take latency) = true ↔
      ∃ j e, k < j ∧ j ≤ k + latency ∧ cycles[j]? = some e ∧ e.port.rst = true := by
  simp only [anyReset, List.any_eq_true, List.mem_iff_getElem?, List.getElem?_take, List.getElem?_drop]
  constructor
  · rintro ⟨e, ⟨i, hi⟩, hrst⟩
    obtain ⟨hlt, he⟩ := Option.ite_none_right_eq_some.1 hi
    exact ⟨k + 1 + i, e, by omega, by omega, he, hrst⟩
  · rintro ⟨j, e, hkj, hjk, he, hrst⟩
    refine ⟨e, ⟨j - (k + 1), ?_⟩, hrst⟩
    rw [if_pos (by omega), Nat.add_sub_cancel' (by omega), he]

/-- 70_reset_and_hazards.md R79: a valid request and L more cycles of its copy, none of them with reset, bring its answer. -/
theorem lastResponse_clockAll {table : Table} {b : Block idxW} {port : PortIn idxW} {later : List (PortIn idxW)}
    (h : blockOk table later.length b) (inst : InstanceId) (hvalid : port.reqValid = true)
    (hrst : ∀ p ∈ port :: later, p.rst = false) :
    lastResponse (clockAll table inst (port :: later) b) = some (respond table port.req) := by
  have hports := map_port_trace_clockAll table inst (port :: later) b
  have htrace := (blockOk_iff.1 (h.clockAll inst (port :: later))).2
  rw [lastResponse]
  generalize (clockAll table inst (port :: later) b).trace = cycles at hports htrace
  have hasked : answeredRequest later.length cycles = some port.req := by
    have hport : (cycles.map CycleRecord.port)[later.length]? = some port := by simp [hports]
    rw [List.getElem?_map] at hport
    obtain ⟨e, he, rfl⟩ := Option.map_eq_some_iff.1 hport
    rw [answeredRequest_of_getElem? he, if_pos hvalid]
  have hreset : anyReset ((cycles.drop 1).take later.length) = false := by
    rw [Bool.eq_false_iff, Ne, anyReset_after_iff (k := 0)]
    rintro ⟨j, e, -, hj, he, hset⟩
    have hport : (port :: later).reverse[j]? = some e.port := by
      rw [← List.getElem?_append_left (l₂ := b.trace.map CycleRecord.port) (by simp; omega), ← hports,
        List.getElem?_map, he, Option.map_some]
    have hclear := hrst _ (List.mem_reverse.1 (List.mem_of_getElem? hport))
    rw [hset] at hclear
    cases hclear
  cases cycles with
  | nil => cases hasked
  | cons newest older =>
    have hrsp := rsp_of_traceOk htrace (k := 0) rfl
    rw [hreset, List.drop_zero, hasked] at hrsp
    exact hrsp

/-! ### One cycle of the pipeline, stage by stage -/

section Stages

variable (inst : InstanceId) (port : PortIn idxW) (answer : Vec idxW) (b : Block idxW)

theorem clockBlock_stages_of_not_rst (h : port.rst = false) :
    (clockBlock inst port answer b).stages = shiftStages port answer b.stages :=
  if_neg (by simp [h])

theorem shiftStages_first (stages : List (Stage idxW)) (h : 0 < stages.length) :
    (shiftStages port answer stages)[0]? = some ⟨port.reqValid, answer⟩ := by
  simp [shiftStages, h]

/-- 10_state.md R22: stage k + 1 takes stage k, if there is such a stage. -/
theorem shiftStages_succ (stages : List (Stage idxW)) (k : Nat) :
    (shiftStages port answer stages)[k + 1]? = if k + 1 < stages.length then stages[k]? else none := by
  simp [shiftStages, List.getElem?_dropLast]

/-- With L > 0 the outputs are v_L and p_L. -/
theorem blockOut_of_length {stages : List (Stage idxW)} {L : Nat} (h : stages.length = L + 1) :
    blockOut stages port answer = (stages[L]?).bind stageHeld := by
  have hlast : stages.getLast? = stages[L]? := by rw [List.getLast?_eq_getElem?, h, Nat.add_sub_cancel]
  rw [blockOut, hlast, List.getElem?_eq_getElem (by omega)]
  rfl

end Stages

/-! ### The statements over steps -/

/-- Settles O28, from the reset copy's stages, which are not valid by definition. -/
theorem initialStateGood : Obligations.InitialStateGood := by
  refine fun c hwf => ⟨State.init_inv hwf, fun inst => ?_⟩
  rw [State.init_block]
  refine ⟨by simp [resetBlock], fun st hst => ?_⟩
  obtain ⟨k, -, rfl⟩ := List.mem_map.1 hst
  rfl

/-- Settles O35: an empty schedule leaves the state, and a presented cycle keeps each copy as its record says. -/
theorem stepKeepsInv : Obligations.StepKeepsInv := by
  intro s t hinv hstep
  obtain ⟨t', hstep', hinv', -⟩ := step_progress hinv
  obtain rfl := Host.Outcome.next.inj (hstep.symm.trans hstep')
  exact hinv'

/-- Settles O32: the outputs are read off the stages before the edge, and the stages shift. -/
theorem cycleShiftsPipeline : Obligations.CycleShiftsPipeline := by
  intro s cycle rest hinv hinputs hrst
  have hok := hinv.block_ok cycle.inst
  have hstages := clockBlock_stages_of_not_rst cycle.inst cycle.port
    (respond (tableOf s.cfg cycle.inst) cycle.port.req) (s.block cycle.inst) hrst
  refine ⟨_, _, step_of_inv hinv hinputs, clockBlock_trace _ _ _ _, fun hlat => ?_, fun L hlat => ?_⟩
  · rw [hlat] at hok
    rw [hstages, hok.stages_eq_nil]
    exact ⟨rfl, rfl⟩
  · have hlen : (s.block cycle.inst).stages.length = L + 1 := hok.length_stages.trans hlat
    refine ⟨(length_clockBlock_stages _ _ _ _).trans hlen, blockOut_of_length _ _ hlen, ?_, fun k hk => ?_⟩
    · rw [hstages, shiftStages_first _ _ _ (by omega)]
    · rw [hstages, shiftStages_succ, if_pos (by omega)]

/-- Settles O40: what a step leaves in a copy is a function of that copy and of what the step's cycle presents to it. -/
theorem copiesDoNotInterfere : Obligations.CopiesDoNotInterfere := by
  refine fun c own other other' inputs sel t t' => ⟨fun h h' => ?_, fun h h' => ?_, ?_, ?_⟩
  · exact ⟨_, _, _, _, _, step_next_afterCycles h, step_next_afterCycles h'⟩
  · exact ⟨_, _, _, _, _, step_next_afterCycles h, step_next_afterCycles h'⟩
  · rintro p rest rfl h
    exact ⟨_, step_next_afterCycles h⟩
  · rintro p rest rfl h
    exact ⟨_, step_next_afterCycles h⟩

/-! ### The statements over runs and records -/

/-- Settles O36, by induction on the number of steps. -/
theorem runsNeverStop : Obligations.RunsNeverStop := by
  intro n
  induction n with
  | zero => exact fun s hinv => ⟨s, run_zero s, hinv, rfl⟩
  | succ n ih =>
    intro s hinv
    obtain ⟨u, hstep, hinvu, hcfgu⟩ := step_progress hinv
    obtain ⟨t, hrun, hinvt, hcfgt⟩ := ih u hinvu
    exact ⟨t, (run_succ_of_next hstep).trans hrun, hinvt, hcfgt.trans hcfgu⟩

/-- Settles O37, by the one formula for every recorded output. -/
theorem answeredExactlyLatencyLater : Obligations.AnsweredExactlyLatencyLater := by
  intro s inst k e hinv he
  rw [rsp_of_traceOk (blockOk_iff.1 (hinv.block_ok inst)).2 he]
  refine ⟨fun q hq hclear => ?_, fun j q' hkj hjk hq' hrst => ?_, fun hnone => ?_⟩
  · have hreset : anyReset (((s.block inst).trace.drop (k + 1)).take s.cfg.respLatency) = false := by
      rw [Bool.eq_false_iff, Ne, anyReset_after_iff]
      rintro ⟨j, q', hkj, hjk, hq', hrst⟩
      exact Bool.false_ne_true ((hclear j q' hkj hjk hq').symm.trans hrst)
    rw [hreset, answeredRequest_of_getElem? (List.getElem?_drop.trans hq)]
    simp [apply_ite]
  · rw [anyReset_after_iff.2 ⟨j, q', hkj, hjk, hq', hrst⟩, if_pos rfl]
  · rw [answeredRequest_of_getElem?_none (List.getElem?_drop.trans hnone)]
    simp

/-- Settles O39: each of the two responses is the response function's answer to the request. -/
theorem responseIgnoresHistory : Obligations.ResponseIgnoresHistory := by
  intro c inst b b' hb hb' k k' e e' req rsp rsp' he he' hreq hreq' hrsp hrsp'
  calc rsp = respond (tableOf c inst) req := rsp_eq_respond (blockOk_iff.1 hb).2 he hreq hrsp
    _ = rsp' := (rsp_eq_respond (blockOk_iff.1 hb').2 he' hreq' hrsp').symm

/-- Settles O38: the run takes the copy through exactly these cycles. -/
theorem requestAnsweredAfterLatencyCycles : Obligations.RequestAnsweredAfterLatencyCycles := by
  intro c native hash inst port later rest sel hinv hlen hvalid hrst
  obtain ⟨sel', hrun⟩ := run_schedule hinv
  rw [List.length_map, List.length_cons, hlen] at hrun
  refine ⟨_, hrun, ?_⟩
  have hok := hinv.block_ok inst
  rw [← hlen] at hok
  rw [responseValue, block_afterCycles, portsOf_map_same]
  exact congrArg (Option.map BitVec.toNat) (lastResponse_clockAll hok inst hvalid hrst)

/-- Settles O41: the run of a schedule leaves in a copy what its own cycles of the schedule leave in it. -/
theorem copyDependsOnItsOwnCyclesOnly : Obligations.CopyDependsOnItsOwnCyclesOnly := by
  refine fun c own other other' inputs inputs' sel sel' => ⟨fun hinv hinv' hsame => ?_, fun hinv hinv' hsame => ?_⟩
  · obtain ⟨sel₁, hrun⟩ := run_whole_schedule hinv
    obtain ⟨sel₁', hrun'⟩ := run_whole_schedule hinv'
    rw [afterCycles, portsOf_congr hsame] at hrun
    exact ⟨_, _, _, sel₁, sel₁', hrun, hrun'⟩
  · obtain ⟨sel₁, hrun⟩ := run_whole_schedule hinv
    obtain ⟨sel₁', hrun'⟩ := run_whole_schedule hinv'
    rw [afterCycles, portsOf_congr hsame] at hrun
    exact ⟨_, _, _, sel₁, sel₁', hrun, hrun'⟩

end Sys2Proof.Machine

/-! The statements of 10_state.md over the meaning of one instruction: DERIVE, RESOLVE, and the frame of both. -/

namespace Sys2Proof.Machine

variable {idxW : Nat}

/-! ### The answers in numbers -/

theorem tableWf_tableOf {c : Config} (hwf : configWf c = true) (inst : InstanceId) :
    tableWf c.idxW (tableOf c inst) = true := by
  obtain ⟨hlow, -, hhash, -⟩ := configWf_iff.1 hwf
  cases inst with
  | native => exact tableWf_nativeTable (by omega)
  | hash => exact hhash

/-- 40_derive.md R46: the two shifts leave 2^shift − 1. -/
theorem maskOfShift_eq_ofNat {shift : Shift} (h : shift.toNat ≤ idxW) :
    maskOfShift idxW shift = BitVec.ofNat idxW (2 ^ shift.toNat - 1) := by
  apply BitVec.eq_of_getLsbD_eq
  intro k hk
  rw [getLsbD_maskOfShift shift h, BitVec.getLsbD_ofNat, Nat.testBit_two_pow_sub_one]
  simp [hk]

theorem deriveResponse_of_key {table : Table} (hwf : tableWf idxW table = true) {width : WordWidth} {shift : Shift}
    (h : lookupTable table width = some shift) :
    (deriveResponse table width : Vec idxW) =
      packFields ⟨0b00#2, shift.setWidth 16, BitVec.ofNat idxW (2 ^ shift.toNat - 1), 0⟩ := by
  rw [deriveResponse, h, ← maskOfShift_eq_ofNat (lookupTable_wf hwf h).2]
  rfl

theorem deriveResponse_of_not_key {table : Table} {width : WordWidth} (h : lookupTable table width = none) :
    (deriveResponse table width : Vec idxW) = packFields ⟨0b01#2, 0, 0, 0⟩ := by
  rw [deriveResponse, h]
  rfl

/-- 41_resolve.md R52: of operands that fit, the logical shift is the floor of the quotient. -/
theorem resolveResponse_of_fit {shift bitIndex : Nat} (hshift : shift < 2 ^ 8) (hindex : bitIndex < 2 ^ idxW) (mask : Nat) :
    resolveResponse (shiftOperand shift) (indexOperand idxW mask) (indexOperand idxW bitIndex) =
      packFields ⟨0b00#2, 0, BitVec.ofNat idxW (bitIndex &&& mask), BitVec.ofNat idxW (bitIndex / 2 ^ shift)⟩ := by
  have hoffset : indexOperand idxW bitIndex &&& indexOperand idxW mask = BitVec.ofNat idxW (bitIndex &&& mask) :=
    BitVec.ofNat_and.symm
  have hword : indexOperand idxW bitIndex >>> (shiftOperand shift).toNat = BitVec.ofNat idxW (bitIndex / 2 ^ shift) := by
    apply BitVec.eq_of_toNat_eq
    rw [BitVec.toNat_ushiftRight, indexOperand, shiftOperand, BitVec.toNat_ofNat, BitVec.toNat_ofNat, BitVec.toNat_ofNat,
      Nat.mod_eq_of_lt hshift, Nat.mod_eq_of_lt hindex, Nat.shiftRight_eq_div_pow,
      Nat.mod_eq_of_lt ((Nat.div_le_self _ _).trans_lt hindex)]
  rw [resolveResponse, hoffset, hword]
  rfl

theorem encode_derive (wordWidth : Nat) :
    encode idxW (.derive wordWidth) = packFields ⟨0b00#2, BitVec.ofNat 16 wordWidth, 0, 0⟩ := rfl

theorem encode_resolve_of_fit {shift : Nat} (hshift : shift < 2 ^ 8) (mask bitIndex : Nat) :
    encode idxW (.resolve shift mask bitIndex) =
      packFields ⟨0b01#2, BitVec.ofNat 16 shift, BitVec.ofNat idxW mask, BitVec.ofNat idxW bitIndex⟩ := by
  have hfield : (BitVec.ofNat 8 shift).setWidth 16 = BitVec.ofNat 16 shift := by
    apply BitVec.eq_of_toNat_eq
    rw [BitVec.toNat_setWidth, BitVec.toNat_ofNat, BitVec.toNat_ofNat, Nat.mod_eq_of_lt hshift]
  rw [encode, encodeFields, hfield]
  rfl

/-! ### The statements -/

/-- Settles O13: a width that fits completes, and a well-formed table's shift has the mask 2^shift − 1. -/
theorem execDeriveSupported : Obligations.ExecDeriveSupported := by
  intro s wordWidth shift hwf hout hfit hkey
  rw [exec_of_noForbidden hout (wellFormed_derive.2 hfit), encode_derive, answerInstr, wordWidthOperand,
    deriveResponse_of_key (tableWf_tableOf hwf s.sel) hkey]

/-- Settles O14: a width that fits completes, and one that is no key has only its status. -/
theorem execDeriveUnsupported : Obligations.ExecDeriveUnsupported := by
  intro s wordWidth hout hfit hkey
  rw [exec_of_noForbidden hout (wellFormed_derive.2 hfit), encode_derive, answerInstr, wordWidthOperand,
    deriveResponse_of_not_key hkey]

/-- Settles O16: operands that fit complete, and their fields carry them unchanged. -/
theorem execResolveCompletes : Obligations.ExecResolveCompletes := by
  intro s shift mask bitIndex hout hshift hmask hindex
  rw [exec_of_noForbidden hout (wellFormed_resolve.2 ⟨hshift, hmask, hindex⟩), answerInstr,
    resolveResponse_of_fit hshift hindex, encode_resolve_of_fit hshift]

/-- Settles O43: a next state is the one cycle of the selected copy, out of reset. -/
theorem execFrame : Obligations.ExecFrame := by
  intro i s t h
  obtain rfl := exec_next h
  refine ⟨_, _, rfl, rfl, length_clockBlock_stages _ _ _ _, clockBlock_trace _ _ _ _, fun k => ?_⟩
  rw [clockBlock_stages_of_not_rst _ (requestPort _) _ _ rfl, shiftStages_succ]
  split
  · exact .inr rfl
  · exact .inl rfl

end Sys2Proof.Machine

/-!
The statements of 20_memory.md. First what a copy answers to RESOLVE, for any pair (41_resolve.md R52) and for a derived
one (R59), and the bound of R28.
-/

namespace Sys2Proof

variable {idxW : Nat}

/-! ### A RESOLVE request built from its operands -/

/-- 30_encoding.md R37: a shift in field A leaves its reserved bits zero, and is read back from its low byte. -/
theorem extractLsb'_setWidth_shift (shift : BitVec 8) :
    (shift.setWidth 16).extractLsb' 8 8 = 0 ∧ (shift.setWidth 16).extractLsb' 0 8 = shift := by
  constructor <;>
  · apply BitVec.eq_of_getLsbD_eq
    intro k hk
    simp only [BitVec.getLsbD_extractLsb', BitVec.getLsbD_setWidth, hk]
    simp [hk.trans (by decide : 8 < 16)]

theorem decode_resolveRequest (shift : Shift) (mask bitIndex : BitVec idxW) :
    decode (packFields ⟨0b01#2, shift.setWidth 16, mask, bitIndex⟩) =
      .legal (.resolve shift.toNat mask.toNat bitIndex.toNat) := by
  obtain ⟨hreserved, hlow⟩ := extractLsb'_setWidth_shift shift
  have hop : (0b01#2 : BitVec 2) ≠ opDerive := by decide
  have hop' : (0b01#2 : BitVec 2) = opResolve := rfl
  rw [decode_packFields, decodeFields]
  dsimp only
  rw [if_neg hop, if_pos hop', if_pos hreserved, hlow]

end Sys2Proof

namespace Sys2Proof.Machine

variable {idxW : Nat} {table : Table} {shift : Shift} {mask : BitVec idxW}

/-! ### The answer to RESOLVE -/

/-- 41_resolve.md R52: the response to RESOLVE carries the shifted and the masked bit index, whatever the pair. -/
theorem respond_resolveRequest (table : Table) (shift : Shift) (mask bitIndex : BitVec idxW) :
    respond table (packFields ⟨0b01#2, shift.setWidth 16, mask, bitIndex⟩) = resolveResponse shift mask bitIndex := by
  rw [respond_of_legal (decode_resolveRequest shift mask bitIndex)]
  simp [answerInstr, shiftOperand, indexOperand]

@[simp] theorem resolvedWordIndex_eq (table : Table) (shift : Shift) (mask bitIndex : BitVec idxW) :
    resolvedWordIndex table shift mask bitIndex = bitIndex >>> shift.toNat := by
  rw [resolvedWordIndex, respond_resolveRequest, resolveResponse, unpackFields_okResolve]

@[simp] theorem resolvedBitOffset_eq (table : Table) (shift : Shift) (mask bitIndex : BitVec idxW) :
    resolvedBitOffset table shift mask bitIndex = bitIndex &&& mask := by
  rw [resolvedBitOffset, respond_resolveRequest, resolveResponse, unpackFields_okResolve]

/-- 41_resolve.md R53: the logical shift is the floor of the quotient, at every shift. -/
theorem toNat_resolvedWordIndex (table : Table) (shift : Shift) (mask bitIndex : BitVec idxW) :
    (resolvedWordIndex table shift mask bitIndex).toNat = bitIndex.toNat / period shift := by
  rw [resolvedWordIndex_eq, BitVec.toNat_ushiftRight, Nat.shiftRight_eq_div_pow, period]

/-! ### Derived pairs -/

/-- 40_derive.md R45, R48: the answer to DERIVE is OK with this pair exactly if the table maps the width to this shift, and the
mask is the one of R46. -/
theorem deriveResponse_eq_okDerive_iff {width : WordWidth} :
    deriveResponse table width = okDerive shift mask ↔
      lookupTable table width = some shift ∧ mask = maskOfShift idxW shift := by
  rw [deriveResponse]
  cases lookupTable table width with
  | none =>
    have hstatus : (raiseStatus .unsupportedWordWidth : Vec idxW) ≠ okDerive shift mask := fun h => by
      have hcode := congrArg statusBits h
      rw [statusBits_raiseStatus, statusBits_okDerive] at hcode
      exact absurd hcode (by decide)
    simp [hstatus]
  | some found =>
    constructor
    · intro h
      obtain ⟨-, hshift, hmask, -⟩ := Fields.mk.inj (packFields_injective h)
      have hfound : found = shift := by
        rw [← (extractLsb'_setWidth_shift found).2, hshift, (extractLsb'_setWidth_shift shift).2]
      subst hfound
      exact ⟨rfl, hmask.symm⟩
    · rintro ⟨hfound, rfl⟩
      obtain rfl := Option.some.inj hfound
      rfl

theorem derived_iff :
    Derived table shift mask ↔
      (∃ width, lookupTable table width = some shift) ∧ mask = maskOfShift idxW shift := by
  simp only [Derived, deriveResponse_eq_okDerive_iff, exists_and_right]

/-- 40_derive.md R46: the mask of a derived pair is P − 1. -/
theorem Derived.toNat_mask (h : Derived table shift mask) (hwf : tableWf idxW table = true) :
    mask.toNat = period shift - 1 := by
  obtain ⟨⟨width, hkey⟩, rfl⟩ := derived_iff.1 h
  have hshift := (lookupTable_wf hwf hkey).2
  have hpow : 2 ^ shift.toNat ≤ 2 ^ idxW := Nat.pow_le_pow_right (by decide) hshift
  have hpos : 0 < 2 ^ shift.toNat := Nat.two_pow_pos _
  rw [maskOfShift_eq_ofNat hshift, BitVec.toNat_ofNat, Nat.mod_eq_of_lt (by omega), period]

/-- 41_resolve.md R59: with a derived pair the bit offset is the remainder by the period. -/
theorem Derived.toNat_resolvedBitOffset (h : Derived table shift mask) (hwf : tableWf idxW table = true)
    (bitIndex : BitVec idxW) : (resolvedBitOffset table shift mask bitIndex).toNat = bitIndex.toNat % period shift := by
  rw [resolvedBitOffset_eq, BitVec.toNat_and, h.toNat_mask hwf, period, Nat.and_two_pow_sub_one_eq_mod]

/-- Settles O18: a quotient and an AND of the bit index are at most the bit index. -/
theorem resolveCannotOverflow : Obligations.ResolveCannotOverflow := by
  refine fun idxW table shift mask bitIndex => ⟨?_, ?_⟩
  · rw [toNat_resolvedWordIndex]
    exact Nat.div_le_self _ _
  · rw [resolvedBitOffset_eq, BitVec.toNat_and]
    exact Nat.and_le_left

end Sys2Proof.Machine

/-! Next, the host's array of words as one sequence of bits (20_memory.md R24). -/

namespace Sys2Proof.Machine

variable {width : Nat}

/-! ### A bit of the sequence is a bit of a word -/

/-- The words of an array are `width` bits wide. -/
def WordsFit (width : Nat) (array : List Nat) : Prop := ∀ word ∈ array, word < 2 ^ width

theorem wordsFit_cons {word : Nat} {words : List Nat} :
    WordsFit width (word :: words) ↔ word < 2 ^ width ∧ WordsFit width words :=
  List.forall_mem_cons

/-- Global bit b of the sequence is bit b mod `width` of word b div `width`; past the end there are zeros. -/
theorem testBit_bitSequence (hwidth : 0 < width) {array : List Nat} (hfit : WordsFit width array) (b : Nat) :
    (bitSequence width array).testBit b = (array.getD (b / width) 0).testBit (b % width) := by
  induction array generalizing b with
  | nil => simp [bitSequence]
  | cons word words ih =>
    obtain ⟨hword, hwords⟩ := wordsFit_cons.1 hfit
    rw [bitSequence, Nat.add_comm, Nat.testBit_two_pow_mul_add _ hword]
    split
    next hlow => rw [Nat.div_eq_of_lt hlow, Nat.mod_eq_of_lt hlow, List.getD_cons_zero]
    next hhigh =>
      have hle : width ≤ b := Nat.le_of_not_lt hhigh
      rw [ih hwords, Nat.div_eq_sub_div hwidth hle, Nat.mod_eq_sub_mod hle, List.getD_cons_succ]

/-! ### Setting a bit of a word -/

theorem testBit_or_shiftLeft_one (word k j : Nat) : (word ||| 1 <<< k).testBit j = (word.testBit j || decide (j = k)) := by
  rw [Nat.testBit_or, Nat.one_shiftLeft, Nat.testBit_two_pow, decide_eq_decide.2 eq_comm]

/-- The array with bit `bitOffset` of one word set, as `hostSetBit` answers it within the bounds. -/
def setWordBit (array : List Nat) (wordIndex bitOffset : Nat) : List Nat :=
  array.set wordIndex (array.getD wordIndex 0 ||| 1 <<< bitOffset)

theorem hostSetBit_eq_setWordBit {array : List Nat} {wordIndex : Nat} (bitOffset : Nat)
    (h : inBounds array wordIndex = true) :
    hostSetBit array wordIndex bitOffset = some (setWordBit array wordIndex bitOffset) :=
  hostSetBit_of_inBounds bitOffset h

@[simp] theorem length_setWordBit (array : List Nat) (wordIndex bitOffset : Nat) :
    (setWordBit array wordIndex bitOffset).length = array.length := List.length_set

/-- A word with a further bit set below its width still fits. -/
theorem WordsFit.setWordBit {array : List Nat} (hfit : WordsFit width array) {wordIndex bitOffset : Nat}
    (hword : wordIndex < array.length) (hoffset : bitOffset < width) :
    WordsFit width (setWordBit array wordIndex bitOffset) := by
  intro word hmem
  obtain hold | rfl := List.mem_or_eq_of_mem_set hmem
  · exact hfit word hold
  · have hbit : 1 <<< bitOffset < 2 ^ width := by
      rw [Nat.one_shiftLeft]
      exact Nat.pow_lt_pow_right (by decide) hoffset
    rw [List.getD_eq_getElem _ _ hword]
    exact Nat.or_lt_two_pow (hfit _ (List.getElem_mem hword)) hbit

/-- 20_memory.md R24: setting the bit at i div `width`, i mod `width` sets bit i of the sequence and no other. -/
theorem testBit_bitSequence_setWordBit (hwidth : 0 < width) {array : List Nat} (hfit : WordsFit width array) {i : Nat}
    (hword : i / width < array.length) (b : Nat) :
    (bitSequence width (setWordBit array (i / width) (i % width))).testBit b =
      ((bitSequence width array).testBit b || decide (b = i)) := by
  have hsame : b = i ↔ b / width = i / width ∧ b % width = i % width :=
    ⟨fun h => by simp [h], fun ⟨hdiv, hmod⟩ => by rw [← Nat.div_add_mod b width, hdiv, hmod, Nat.div_add_mod]⟩
  rw [testBit_bitSequence hwidth (hfit.setWordBit hword (Nat.mod_lt i hwidth)), testBit_bitSequence hwidth hfit, setWordBit]
  by_cases hdiv : b / width = i / width
  · rw [hdiv, List.getD_eq_getElem _ _ (by simpa using hword), List.getElem_set_self, testBit_or_shiftLeft_one]
    simp [hsame, hdiv]
  · rw [List.getD_eq_getElem?_getD, List.getElem?_set_ne (Ne.symm hdiv), ← List.getD_eq_getElem?_getD]
    simp [hsame, hdiv]

/-! ### The host's use of an address -/

theorem inBounds_iff {array : List Nat} {wordIndex : Nat} : inBounds array wordIndex = true ↔ wordIndex < array.length :=
  decide_eq_true_iff

/-- 70_reset_and_hazards.md R77, 93_implementation_defined.md I15: past the end of its array the host uses no address. -/
theorem hostBits_of_not_inBounds {array : List Nat} {wordIndex : Nat} (bitOffset : Nat)
    (h : inBounds array wordIndex = false) :
    hostTestBit array wordIndex bitOffset = none ∧ hostSetBit array wordIndex bitOffset = none := by
  simp [hostTestBit, hostSetBit, h]

/-- Settles O24: a derived pair's address is the quotient and the remainder of the bit index by the width of the words. -/
theorem resolvedAddressLocatesBit : Obligations.ResolvedAddressLocatesBit := by
  intro c hwf inst shift mask bitIndex hderived array hfit
  dsimp only
  rw [toNat_resolvedWordIndex, hderived.toNat_resolvedBitOffset (tableWf_tableOf hwf inst)]
  have hwidth : 0 < period shift := Nat.two_pow_pos _
  refine ⟨fun hbounds => ⟨?_, _, hostSetBit_eq_setWordBit _ hbounds, length_setWordBit _ _ _, ?_⟩,
    hostBits_of_not_inBounds _⟩
  · rw [hostTestBit_of_inBounds _ hbounds, testBit_bitSequence hwidth hfit]
  · exact testBit_bitSequence_setWordBit hwidth hfit (inBounds_iff.1 hbounds)

end Sys2Proof.Machine

/-! Last, two copies clocked in either order (20_memory.md R30), and the bytes of a vector (R25). -/

namespace Sys2Proof.Machine

/-! ### Two cycles -/

section TwoCycles

variable {c : Config} {native hash : Block c.idxW}

/-- The invariant speaks of the copies only, so it holds under any schedule. -/
theorem State.Inv.reschedule {inputs : List (HostCycle c.idxW)} {sel : InstanceId}
    (h : State.Inv ⟨c, native, hash, inputs, sel⟩) (inputs' : List (HostCycle c.idxW)) (sel' : InstanceId) :
    State.Inv ⟨c, native, hash, inputs', sel'⟩ := by
  refine ⟨h.1, fun inst => ?_⟩
  cases inst with
  | native => exact h.block_ok .native
  | hash => exact h.block_ok .hash

/-- From a good state two steps take each copy through its own of the two cycles, and the host last drives the second's copy. -/
theorem run_two_cycles {first second : HostCycle c.idxW} {rest : List (HostCycle c.idxW)} {sel : InstanceId}
    (h : State.Inv ⟨c, native, hash, first :: second :: rest, sel⟩) :
    Sys2Proof.core.run 2 (⟨c, native, hash, first :: second :: rest, sel⟩ : State) =
      .next (afterCycles c native hash [first, second] rest second.inst) := by
  have hstep := step_of_inv h rfl
  have hgood := h.clocked first (second :: rest)
  rw [clocked_eq_afterCycles] at hstep hgood
  have hstep' := step_of_inv hgood rfl
  rw [run_succ_of_next hstep, run_succ_of_next hstep', run_zero,
    afterCycles_cons first [second] rest second.inst first.inst]
  exact congrArg _ (clocked_eq_afterCycles second _ rest first.inst)

end TwoCycles

/-- Settles O42: in either order each copy goes through its own cycle, and from a good state neither order stops. -/
theorem copiesCommute : Obligations.CopiesCommute := by
  intro c native hash p q rest sel hinv
  exact ⟨_, _, run_two_cycles hinv, run_two_cycles (hinv.reschedule (⟨.hash, q⟩ :: ⟨.native, p⟩ :: rest) sel)⟩

/-! ### Bytes -/

/-- The low bytes of a number spell what is left of it in that many bytes. -/
theorem valueOfBytes_lowBytes (n v : Nat) : valueOfBytes (lowBytes n v) = v % 256 ^ n := by
  induction n generalizing v with
  | zero => rw [lowBytes, valueOfBytes, Nat.pow_zero, Nat.mod_one]
  | succ n ih =>
    calc valueOfBytes (lowBytes (n + 1) v) = v % 256 + 256 * (v / 256 % 256 ^ n) := by
          rw [lowBytes, valueOfBytes, ih, BitVec.toNat_ofNat]
      _ = v % 256 ^ (n + 1) := by rw [Nat.pow_succ', Nat.mod_mul]

@[simp] theorem inByteOrder_inByteOrder (order : ByteOrder) (bytes : List (BitVec 8)) :
    inByteOrder order (inByteOrder order bytes) = bytes := by
  cases order with
  | leastFirst => rfl
  | mostFirst => exact List.reverse_reverse bytes

/-- The bytes of a vector have room for all of its bits. -/
theorem two_pow_reqW_le (idxW : Nat) : 2 ^ reqW idxW ≤ 256 ^ vectorBytes idxW := by
  have hbits : 256 ^ vectorBytes idxW = 2 ^ (8 * vectorBytes idxW) := (Nat.pow_mul 2 8 _).symm
  rw [hbits]
  exact Nat.pow_le_pow_right (by decide) (by rw [vectorBytes]; omega)

/-- 20_memory.md R25: reading bytes in the order they were laid out in gives the vector back. -/
theorem fromHostBytes_toHostBytes {idxW : Nat} (order : ByteOrder) (v : Vec idxW) :
    fromHostBytes order (toHostBytes order v) = v := by
  rw [fromHostBytes, toHostBytes, inByteOrder_inByteOrder, valueOfBytes_lowBytes,
    Nat.mod_eq_of_lt (v.isLt.trans_le (two_pow_reqW_le idxW)), BitVec.ofNat_toNat, BitVec.setWidth_eq]

/-! ### HOST_BYTE_ORDER -/

section HostByteOrder

variable (s : State) (order : ByteOrder) (inst : InstanceId)

theorem block_withByteOrder : (s.withByteOrder order).block inst = s.block inst := by
  cases inst <;> rfl

theorem tableOf_withByteOrder : tableOf (s.withByteOrder order).cfg inst = tableOf s.cfg inst := by
  cases inst <;> rfl

end HostByteOrder

/-- Settles O46: a cycle reads the copy it clocks and that copy's TABLE, which the byte order does not change. -/
theorem byteOrderIrrelevant : Obligations.ByteOrderIrrelevant := by
  refine ⟨fun _ => fromHostBytes_toHostBytes, fun s order => ?_⟩
  cases hinputs : s.inputs with
  | nil => rw [step_of_no_cycle hinputs, step_of_no_cycle (s := s.withByteOrder order) hinputs]
  | cons cycle rest =>
    rw [step_eq_presentCycle (s := s.withByteOrder order) hinputs, step_eq_presentCycle hinputs, presentCycle_eq,
      presentCycle_eq, block_advance, block_advance, block_withByteOrder, tableOf_withByteOrder]
    split <;> rfl

end Sys2Proof.Machine

/-!
The statements of 30_encoding.md. First the vectors: the integer that four fields make (R34), decoding against encoding
(R39), and the bits of field A.
-/

namespace Sys2Proof

variable {idxW : Nat}

/-! ### A vector as an integer -/

theorem toNat_append_eq_add {m n : Nat} (high : BitVec m) (low : BitVec n) :
    (high ++ low).toNat = low.toNat + high.toNat * 2 ^ n := by
  rw [BitVec.toNat_append, ← Nat.shiftLeft_add_eq_or_of_lt low.isLt, Nat.shiftLeft_eq, Nat.add_comm]

/-- 30_encoding.md R34. -/
theorem toNat_packFields (f : Fields idxW) :
    (packFields f).toNat = f.code.toNat + f.a.toNat * 2 ^ 2 + f.b.toNat * 2 ^ 18 + f.c.toNat * 2 ^ (idxW + 18) := by
  simp only [packFields, toNat_append_eq_add]

/-! ### Decoding an encoded instruction -/

theorem decode_deriveRequest (wordWidth : WordWidth) :
    decode (packFields (idxW := idxW) ⟨opDerive, wordWidth, 0, 0⟩) = .legal (.derive wordWidth.toNat) := by
  simp [decodeFields]

/-- 30_encoding.md R39, R43: operands that fit come back. -/
theorem decode_encode {i : Instr} (hfit : WellFormed idxW i = true) : decode (encode idxW i) = .legal i := by
  cases i with
  | derive wordWidth =>
    have hwidth := wellFormed_derive.1 hfit
    rw [encode, encodeFields, decode_deriveRequest, BitVec.toNat_ofNat, Nat.mod_eq_of_lt hwidth]
  | resolve shift mask bitIndex =>
    obtain ⟨hshift, hmask, hindex⟩ := wellFormed_resolve.1 hfit
    have hdecode := decode_resolveRequest (BitVec.ofNat 8 shift) (BitVec.ofNat idxW mask) (BitVec.ofNat idxW bitIndex)
    simp only [BitVec.toNat_ofNat, Nat.mod_eq_of_lt hshift, Nat.mod_eq_of_lt hmask, Nat.mod_eq_of_lt hindex] at hdecode
    exact hdecode

/-- 30_encoding.md R37, R38(c): a request with op = 01 is a RESOLVE exactly if A[15:8] is zero. -/
theorem decode_opResolve (a : BitVec 16) (b c : BitVec idxW) :
    decode (packFields ⟨0b01#2, a, b, c⟩) =
      if a.extractLsb' 8 8 = 0 then .legal (.resolve (a.extractLsb' 0 8).toNat b.toNat c.toNat)
      else .illegal .resolveReservedNonzero := by
  rw [decode_packFields, decodeFields]
  rfl

/-! ### The two bytes of field A -/

/-- 30_encoding.md R41: bits [9:2] and [17:10] of a vector are the low and the high byte of its field A. -/
theorem extractLsb'_bytes_of_a (v : Vec idxW) :
    v.extractLsb' 2 8 = (unpackFields v).a.extractLsb' 0 8 ∧ v.extractLsb' 10 8 = (unpackFields v).a.extractLsb' 8 8 := by
  constructor <;>
  · apply BitVec.eq_of_getLsbD_eq
    intro k hk
    simp only [unpackFields, BitVec.getLsbD_extractLsb', hk, decide_true, Bool.true_and]
    grind

/-! ### The statements about vectors -/

/-- Settles O1, constructor by constructor. -/
theorem decodeInvertsEncode : Obligations.DecodeInvertsEncode :=
  fun _ _ hfit => decode_encode hfit

/-- Settles O2: every branch of the decoder that answers an instruction fixes all four fields. -/
theorem encodeInvertsDecode : Obligations.EncodeInvertsDecode :=
  fun _ _ _ hdecode => decode_eq_legal hdecode

/-- Settles O3: packing is a sum of shifted fields, and unpacking and packing are inverse. -/
theorem vectorIsItsFields : Obligations.VectorIsItsFields := by
  refine fun idxW => ⟨?_, fun v => ?_, fun code a b c => ⟨toNat_packFields _, unpackFields_packFields _⟩, fun code a b c => ?_⟩
  · rw [reqW]
    omega
  · have hsum := toNat_packFields (unpackFields v)
    rw [packFields_unpackFields] at hsum
    exact hsum
  · exact decode_packFields _

/-- Settles O6: each word is the encoding of an instruction that fits, or has a reserved bit set. -/
theorem sampleWordsDecode : Obligations.SampleWordsDecode := by
  refine ⟨?_, ?_, ?_, by decide, by decide, by decide, ?_⟩
  · exact decode_encode (idxW := 64) (i := .derive 64) (by decide)
  · exact decode_encode (idxW := 64) (i := .resolve 6 63 130) (by decide)
  · exact decode_encode (idxW := 64) (i := .resolve 63 0x7FFFFFFFFFFFFFFF 0xFFFFFFFFFFFFFFFF) (by decide)
  · exact decode_encode (idxW := 8) (i := .resolve 3 7 130) (by decide)

end Sys2Proof

/-! Next, what stands in the response to a request (30_encoding.md R41). -/

namespace Sys2Proof.Machine

variable {idxW : Nat} {table : Table} {req : Vec idxW}

/-! ### Responses as integers -/

@[simp] theorem toNat_raiseStatus (e : Status) : (raiseStatus e : Vec idxW).toNat = (statusCode e).toNat := by
  simp [raiseStatus, toNat_packFields]

theorem toNat_okDerive (shift : Shift) (mask : BitVec idxW) :
    (okDerive shift mask).toNat = shift.toNat * 2 ^ 2 + mask.toNat * 2 ^ 18 := by
  have hshift : (shift.setWidth 16).toNat = shift.toNat := BitVec.toNat_setWidth_of_le (by decide)
  simp [okDerive, toNat_packFields, statusCode, hshift]

theorem toNat_okResolve (wordIndex bitOffset : BitVec idxW) :
    (okResolve wordIndex bitOffset).toNat = bitOffset.toNat * 2 ^ 18 + wordIndex.toNat * 2 ^ (idxW + 18) := by
  simp [okResolve, toNat_packFields, statusCode]

/-- 40_derive.md R46. -/
theorem toNat_maskOfShift {shift : Shift} (h : shift.toNat ≤ idxW) : (maskOfShift idxW shift).toNat = 2 ^ shift.toNat - 1 := by
  have hle : 2 ^ shift.toNat ≤ 2 ^ idxW := Nat.pow_le_pow_right (by decide) h
  have hpos : 0 < 2 ^ shift.toNat := Nat.two_pow_pos _
  rw [maskOfShift_eq_ofNat h, BitVec.toNat_ofNat, Nat.mod_eq_of_lt (by omega)]

/-! ### The response to each decoded request -/

/-- 60_exceptions.md R61: a response whose status is not OK is that status alone. -/
theorem respond_of_error (h : statusBits (respond table req) ≠ statusCode .ok) : ∃ e, respond table req = raiseStatus e := by
  revert h
  rw [respond]
  split
  next i _ =>
    cases i with
    | derive wordWidth =>
      rw [answerInstr, deriveResponse]
      split
      · exact fun _ => ⟨_, rfl⟩
      · exact fun h => absurd (statusBits_okDerive _ _) h
    | resolve shift mask bitIndex => exact fun h => absurd (statusBits_okResolve _ _) h
  next => exact fun _ => ⟨_, rfl⟩

theorem respond_derive_of_key {wordWidth : Nat} {shift : Shift} (hdecode : decode req = .legal (.derive wordWidth))
    (hkey : lookupTable table (BitVec.ofNat 16 wordWidth) = some shift) :
    respond table req = okDerive shift (maskOfShift idxW shift) := by
  rw [respond_of_legal hdecode, answerInstr, wordWidthOperand, deriveResponse, hkey]

theorem respond_derive_of_not_key {wordWidth : Nat} (hdecode : decode req = .legal (.derive wordWidth))
    (hkey : lookupTable table (BitVec.ofNat 16 wordWidth) = none) :
    respond table req = raiseStatus .unsupportedWordWidth := by
  rw [respond_of_legal hdecode, answerInstr, wordWidthOperand, deriveResponse, hkey]

/-- 40_derive.md R45, R48: only a DERIVE of a key is answered with OK, with the table's shift and its mask. -/
theorem respond_derive_of_ok {wordWidth : Nat} (hdecode : decode req = .legal (.derive wordWidth))
    (hok : statusBits (respond table req) = statusCode .ok) :
    ∃ shift, lookupTable table (BitVec.ofNat 16 wordWidth) = some shift ∧
      respond table req = okDerive shift (maskOfShift idxW shift) := by
  cases hkey : lookupTable table (BitVec.ofNat 16 wordWidth) with
  | none =>
    rw [respond_derive_of_not_key hdecode hkey, statusBits_raiseStatus] at hok
    exact absurd hok (by decide)
  | some shift => exact ⟨shift, rfl, respond_derive_of_key hdecode hkey⟩

/-- 41_resolve.md R52, R55: of operands that fit, the response carries the results of the unbounded shift and AND. -/
theorem answerInstr_resolve {shift mask bitIndex : Nat} (hfit : WellFormed idxW (.resolve shift mask bitIndex) = true) :
    ∃ wordIndex bitOffset : BitVec idxW, answerInstr table (.resolve shift mask bitIndex) = okResolve wordIndex bitOffset ∧
      wordIndex.toNat = bitIndex / 2 ^ shift ∧ bitOffset.toNat = bitIndex &&& mask := by
  obtain ⟨hshift, -, hindex⟩ := wellFormed_resolve.1 hfit
  refine ⟨_, _, resolveResponse_of_fit hshift hindex mask, ?_, ?_⟩
  · rw [BitVec.toNat_ofNat, Nat.mod_eq_of_lt ((Nat.div_le_self _ _).trans_lt hindex)]
  · rw [BitVec.toNat_ofNat, Nat.mod_eq_of_lt (Nat.and_le_left.trans_lt hindex)]

theorem respond_resolve {shift mask bitIndex : Nat} (hdecode : decode req = .legal (.resolve shift mask bitIndex)) :
    ∃ wordIndex bitOffset : BitVec idxW, respond table req = okResolve wordIndex bitOffset ∧
      wordIndex.toNat = bitIndex / 2 ^ shift ∧ bitOffset.toNat = bitIndex &&& mask := by
  rw [respond_of_legal hdecode]
  exact answerInstr_resolve (decode_eq_legal hdecode).1

/-! ### The statements about responses -/

/-- Settles O4: the answer's A and B are a shift and its mask, which a RESOLVE reads back. -/
theorem derivedPairCopiesIntoRequest : Obligations.DerivedPairCopiesIntoRequest := by
  refine fun idxW => ⟨fun a b c ha => ?_, fun a b c ha => ?_, fun table req wordWidth bitIndex hwf hdecode hok => ?_⟩
  · rw [decode_opResolve, if_pos ha]
  · rw [decode_opResolve, if_neg ha]
  · obtain ⟨shift, hkey, hrsp⟩ := respond_derive_of_ok hdecode hok
    have ha : (okDerive shift (maskOfShift idxW shift)).extractLsb' 2 16 = shift.setWidth 16 :=
      congrArg Fields.a (unpackFields_okDerive shift _)
    have hb : (okDerive shift (maskOfShift idxW shift)).extractLsb' 18 idxW = maskOfShift idxW shift :=
      congrArg Fields.b (unpackFields_okDerive shift _)
    refine ⟨shift, hkey, ?_⟩
    rw [hrsp, ha, hb, decode_resolveRequest, toNat_maskOfShift (lookupTable_wf hwf hkey).2]

/-- Settles O19: an index that fits is decoded and answered, and one that does not is refused. -/
theorem resultsMatchUnboundedIndex : Obligations.ResultsMatchUnboundedIndex := by
  refine fun idxW table shift mask bitIndex hshift hmask => ⟨fun hindex => ?_, ?_⟩
  · obtain ⟨wordIndex, bitOffset, hrsp, hword, hoffset⟩ :=
      respond_resolve (table := table) (decode_encode (wellFormed_resolve.2 ⟨hshift, hmask, hindex⟩))
    rw [hrsp, unpackFields_okResolve, Nat.shiftRight_eq_div_pow]
    exact ⟨hword, hoffset⟩
  · rintro hindex s rfl
    rw [exec_eq, if_neg]
    exact fun hfit => hindex.not_gt (wellFormed_resolve.1 hfit).2.2

/-- Settles O26: each form of a response, field by field. -/
theorem responseTable : Obligations.ResponseTable := by
  refine fun idxW table req => ⟨fun herror => ?_, fun wordWidth hdecode hok => ?_, fun shift mask bitIndex hdecode => ?_⟩
  · obtain ⟨e, hrsp⟩ := respond_of_error herror
    rw [hrsp, toNat_raiseStatus, statusBits_raiseStatus]
  · obtain ⟨shift, hkey, hrsp⟩ := respond_derive_of_ok hdecode hok
    have hfields := unpackFields_okDerive shift (maskOfShift idxW shift)
    obtain ⟨hlow, hhigh⟩ := extractLsb'_bytes_of_a (okDerive shift (maskOfShift idxW shift))
    obtain ⟨hzero, hshift⟩ := extractLsb'_setWidth_shift shift
    rw [hfields] at hlow hhigh
    rw [hrsp]
    exact ⟨shift, hkey, hlow.trans hshift, hhigh.trans hzero, congrArg Fields.b hfields, congrArg Fields.c hfields⟩
  · obtain ⟨wordIndex, bitOffset, hrsp, hword, hoffset⟩ := respond_resolve (table := table) hdecode
    have hfields := unpackFields_okResolve wordIndex bitOffset
    obtain ⟨hlow, hhigh⟩ := extractLsb'_bytes_of_a (okResolve wordIndex bitOffset)
    rw [hfields] at hlow hhigh
    rw [hrsp, Nat.shiftRight_eq_div_pow]
    refine ⟨hlow.trans BitVec.extractLsb'_zero, hhigh.trans BitVec.extractLsb'_zero, ?_, ?_⟩
    · exact (congrArg (fun f => f.b.toNat) hfields).trans hoffset
    · exact (congrArg (fun f => f.c.toNat) hfields).trans hword

end Sys2Proof.Machine

/-! Next, one cycle of a copy: with no stage (30_encoding.md R32), refused (R43), and faulting (R42). -/

namespace Sys2Proof.Machine

variable {idxW : Nat}

/-! ### How a cycle can stop -/

theorem presentCycle_ne_refused (s : State) (port : PortIn s.cfg.idxW) (answer : Vec s.cfg.idxW) (r : Refusal) :
    presentCycle s port answer ≠ .refused r := by
  rw [presentCycle_eq]
  split <;> exact nofun

theorem presentCycle_faults_iff (s : State) (port : PortIn s.cfg.idxW) (answer : Vec s.cfg.idxW) :
    (∃ r, presentCycle s port answer = .fault r) ↔ showsForbidden (blockOut (s.block s.sel).stages port answer) = true := by
  rw [presentCycle_eq]
  cases showsForbidden (blockOut (s.block s.sel).stages port answer) with
  | false => simp
  | true => exact iff_of_true ⟨_, rfl⟩ rfl

/-- An answer is never the forbidden status, so only a valid last stage can show it. -/
theorem showsForbidden_blockOut_iff (stages : List (Stage idxW)) (port : PortIn idxW) {answer : Vec idxW}
    (hanswer : statusBits answer ≠ forbiddenCode) :
    showsForbidden (blockOut stages port answer) = true ↔
      ∃ st, stages.getLast? = some st ∧ st.valid = true ∧ statusBits st.payload = forbiddenCode := by
  rw [blockOut]
  cases stages.getLast? with
  | none => cases port.reqValid <;> simp [showsForbidden, hanswer]
  | some last => cases hvalid : last.valid <;> simp [showsForbidden, hvalid]

/-! ### The answer of a copy with no stage -/

/-- 30_encoding.md R32: with L = 0 an instruction that fits leaves its answer in the record of its own cycle. -/
theorem exec_combinational {i : Instr} {s : State} (hinv : s.Inv) (hlat : s.cfg.respLatency = 0)
    (hfit : WellFormed s.cfg.idxW i = true) :
    exec i s = .next (s.setBlock s.sel
      ⟨[], ⟨requestPort (encode s.cfg.idxW i), some (answerInstr (tableOf s.cfg s.sel) i)⟩ :: (s.block s.sel).trace⟩) := by
  have hok := hinv.block_ok s.sel
  rw [hlat] at hok
  rw [exec_of_noForbidden hinv.noForbidden hfit, clockBlock_combinational _ _ _ hok.stages_eq_nil]
  rfl

theorem responseValue_setBlock (s : State) (inst : InstanceId) (stages : List (Stage s.cfg.idxW)) (port : PortIn s.cfg.idxW)
    (rsp : Option (Vec s.cfg.idxW)) (older : List (CycleRecord s.cfg.idxW)) :
    responseValue (s.setBlock inst ⟨stages, ⟨port, rsp⟩ :: older⟩) inst = rsp.map BitVec.toNat := by
  cases inst <;> rfl

theorem toNat_deriveResponse {table : Table} (hwf : tableWf idxW table = true) (width : WordWidth) :
    (deriveResponse table width : Vec idxW).toNat =
      match lookupTable table width with
      | none => 1
      | some shift => shift.toNat * 2 ^ 2 + (2 ^ shift.toNat - 1) * 2 ^ 18 := by
  rw [deriveResponse]
  cases hkey : lookupTable table width with
  | none => exact toNat_raiseStatus _
  | some shift =>
    dsimp only
    rw [toNat_okDerive, toNat_maskOfShift (lookupTable_wf hwf hkey).2]

/-! ### The statements about cycles -/

/-- Settles O30: a step that presents a legal request and the meaning of its instruction are the same cycle. -/
theorem stepRunsDecodedInstruction : Obligations.StepRunsDecodedInstruction := by
  intro s cycle rest i hinputs hvalid hrst hdecode
  rw [step_eq_presentCycle hinputs, exec_of_decode (s := s.advance cycle rest) hdecode,
    requestPort_of_presented (by simp [hvalid, hrst])]

/-- Settles O33: the record of the cycle holds the answer, which is R45's or R52's number. -/
theorem combinationalAnswerInSameCycle : Obligations.CombinationalAnswerInSameCycle := by
  intro s i hinv hlat hfit
  refine ⟨_, exec_combinational hinv hlat hfit, congrArg Block.stages (State.block_setBlock_same _ _ _), ?_⟩
  rw [responseValue_setBlock, Option.map_some]
  congr 1
  cases i with
  | derive wordWidth => exact toNat_deriveResponse (tableWf_tableOf hinv.1 s.sel) _
  | resolve shift mask bitIndex =>
    obtain ⟨wordIndex, bitOffset, hrsp, hword, hoffset⟩ := answerInstr_resolve (table := tableOf s.cfg s.sel) hfit
    rw [hrsp, toNat_okResolve, hword, hoffset]

/-- Settles O44: an instruction is refused by its range check alone, and a step decodes before it runs one. -/
theorem unfitOperandRefusedExactly : Obligations.UnfitOperandRefusedExactly := by
  refine fun i s => ⟨fun hunfit => ?_, fun r hrefused => ?_, fun r => ?_⟩
  · rw [exec_eq, if_neg (by simp [hunfit])]
  · rw [exec_eq] at hrefused
    split at hrefused
    next => exact absurd hrefused (presentCycle_ne_refused _ _ _ _)
    next hunfit => exact ⟨(Host.Outcome.refused.inj hrefused).symm, Bool.eq_false_of_not_eq_true hunfit⟩
  · cases hinputs : s.inputs with
    | nil =>
      rw [step_of_no_cycle hinputs]
      exact nofun
    | cons cycle rest =>
      rw [step_eq_presentCycle hinputs]
      exact presentCycle_ne_refused _ _ _ _

/-- Settles O45: a cycle faults on what its outputs show, and the response function never gives status 11. -/
theorem forbiddenStatusFaultsExactly : Obligations.ForbiddenStatusFaultsExactly := by
  intro s cycle rest hinputs
  rw [step_eq_presentCycle hinputs, presentCycle_faults_iff, block_advance,
    showsForbidden_blockOut_iff _ _ (statusBits_respond_ne_forbidden _ _)]
  rfl

end Sys2Proof.Machine

/-! Last, the text forms (30_encoding.md R43, R44): numerals and literals, then calls, then results. -/

namespace Sys2Proof.Machine

variable {idxW : Nat}

/-! ### Numerals -/

section Numerals

variable {base : Nat}

/-- The sixteen digits have their values in upper and in lower case. -/
theorem digitValue_digitText {d : Nat} (hd : d < 16) :
    digitValue (digitText d) = some d ∧ digitValue (digitText d).toLower = some d := by
  have hall : ∀ d < 16, digitValue (digitText d) = some d ∧ digitValue (digitText d).toLower = some d := by decide
  exact hall d hd

theorem numeralValue_cons {c : Char} {d : Nat} (hvalue : digitValue c = some d) (hd : d < base) (cs : List Char) (acc : Nat) :
    numeralValue base (c :: cs) acc = numeralValue base cs (acc * base + d) := by
  simp [numeralValue, hvalue, hd]

/-- Every character of a numeral is a digit. -/
theorem digitValue_ne_none_of_mem {cs : List Char} {acc n : Nat} (h : numeralValue base cs acc = some n) {c : Char}
    (hc : c ∈ cs) : digitValue c ≠ none := by
  induction cs generalizing acc with
  | nil => cases hc
  | cons first cs ih =>
    rw [numeralValue] at h
    split at h
    next => cases h
    next d hvalue =>
      obtain rfl | hmem := List.mem_cons.1 hc
      · simp [hvalue]
      · exact ih (Option.ite_none_right_eq_some.1 h).2 hmem

theorem numeralValue_append (cs ds : List Char) (acc : Nat) :
    numeralValue base (cs ++ ds) acc = (numeralValue base cs acc).bind (numeralValue base ds) := by
  induction cs generalizing acc with
  | nil => rfl
  | cons c cs ih =>
    rw [List.cons_append, numeralValue, numeralValue]
    cases digitValue c with
    | none => rfl
    | some d =>
      by_cases hd : d < base
      · simp only [if_pos hd, ih]
      · simp only [if_neg hd, Option.bind_none]

/-- A printed number is read back, whatever `style` makes of its digits, if that keeps their values. -/
theorem numeralValue_numeralText (hbase : 1 < base) {style : Char → Char}
    (hstyle : ∀ d < base, digitValue (style (digitText d)) = some d) {fuel n : Nat} (hfuel : n < fuel) :
    numeralValue base ((numeralText base fuel n).map style) 0 = some n := by
  induction fuel generalizing n with
  | zero => omega
  | succ fuel ih =>
    rw [numeralText]
    split
    next hdigit =>
      rw [List.map_singleton, numeralValue_cons (hstyle n hdigit) hdigit, Nat.zero_mul, Nat.zero_add]
      rfl
    next hlong =>
      have hmod : n % base < base := Nat.mod_lt _ (by omega)
      have hdiv : n / base < fuel := (Nat.div_lt_self (by omega) hbase).trans_le (by omega)
      rw [List.map_append, numeralValue_append, ih hdiv, Option.bind_some, List.map_singleton,
        numeralValue_cons (hstyle _ hmod) hmod, Nat.div_add_mod']
      rfl

theorem numeralText_ne_nil (fuel n : Nat) : numeralText base (fuel + 1) n ≠ [] := by
  rw [numeralText]
  split <;> simp

theorem numeralOf_numeralText (hbase : 1 < base) {style : Char → Char}
    (hstyle : ∀ d < base, digitValue (style (digitText d)) = some d) (n : Nat) :
    numeralOf base ((numeralText base (n + 1) n).map style) = some n := by
  rw [numeralOf, if_neg (by simpa using numeralText_ne_nil n n), numeralValue_numeralText hbase hstyle n.lt_succ_self]

theorem not_mem_of_numeralOf {cs : List Char} {n : Nat} (h : numeralOf base cs = some n) {c : Char}
    (hdigit : digitValue c = none) : c ∉ cs := fun hc =>
  digitValue_ne_none_of_mem (Option.ite_none_left_eq_some.1 h).2 hc hdigit

end Numerals

/-! ### Literals -/

@[simp] theorem literalOf_hex (digits : List Char) : literalOf ('0' :: 'x' :: digits) = numeralOf 16 digits := rfl

theorem literalOf_of_no_x {text : List Char} (h : 'x' ∉ text) : literalOf text = numeralOf 10 text := by
  unfold literalOf
  split
  next => simp at h
  next => rfl

theorem literalOf_decimalText (n : Nat) : literalOf (decimalText n) = some n := by
  have hvalue : numeralOf 10 (decimalText n) = some n := by
    simpa [decimalText] using
      numeralOf_numeralText (base := 10) (style := id) (by decide) (fun d hd => (digitValue_digitText (by omega)).1) n
  rw [literalOf_of_no_x (not_mem_of_numeralOf hvalue (by decide)), hvalue]

theorem literalOf_hexText (n : Nat) : literalOf (hexText n) = some n := by
  simpa [hexText] using
    numeralOf_numeralText (base := 16) (style := id) (by decide) (fun d hd => (digitValue_digitText hd).1) n

/-- Log 8: lower-case hexadecimal digits are read too. -/
theorem literalOf_hexText_toLower (n : Nat) : literalOf ((hexText n).map Char.toLower) = some n :=
  numeralOf_numeralText (base := 16) (by decide) (fun _ hd => (digitValue_digitText hd).2) n

/-- The characters of a literal are digits and the x of `0x`. -/
theorem not_mem_of_literalOf {text : List Char} {n : Nat} (h : literalOf text = some n) {c : Char}
    (hdigit : digitValue c = none) (hx : c ≠ 'x') : c ∉ text := by
  unfold literalOf at h
  split at h
  next digits =>
    have hzero : c ≠ '0' := by
      rintro rfl
      exact absurd hdigit (by decide)
    simp [hzero, hx, not_mem_of_numeralOf h hdigit]
  next => exact not_mem_of_numeralOf h hdigit

theorem comma_not_mem_of_literalOf {text : List Char} {n : Nat} (h : literalOf text = some n) : ',' ∉ text :=
  not_mem_of_literalOf h (by decide) (by decide)

theorem space_not_mem_of_literalOf {text : List Char} {n : Nat} (h : literalOf text = some n) : ' ' ∉ text :=
  not_mem_of_literalOf h (by decide) (by decide)

theorem dropWhile_space_of_literalOf {text : List Char} {n : Nat} (h : literalOf text = some n) :
    text.dropWhile (· = ' ') = text := by
  cases text with
  | nil => rfl
  | cons c cs =>
    have hc : c ≠ ' ' := fun hc => space_not_mem_of_literalOf h (hc ▸ List.mem_cons_self)
    simp [hc]

/-- Log 8: spaces before a literal are skipped. -/
theorem literalOf_after_spaces {text : List Char} {n : Nat} (h : literalOf text = some n) (gap : Nat) :
    literalOf ((List.replicate gap ' ' ++ text).dropWhile (· = ' ')) = some n := by
  have hspaces : (List.replicate gap ' ' ++ text).dropWhile (· = ' ') = text.dropWhile (· = ' ') :=
    List.dropWhile_append_of_pos (by simp)
  rw [hspaces, dropWhile_space_of_literalOf h, h]

/-! ### Arguments -/

theorem cutAtCommas_of_no_comma {text : List Char} (h : ',' ∉ text) : cutAtCommas text = [text] := by
  induction text with
  | nil => rfl
  | cons c text ih =>
    obtain ⟨hc, htext⟩ := not_or.1 (mt List.mem_cons.2 h)
    rw [cutAtCommas, if_neg (Ne.symm hc), ih htext]

theorem cutAtCommas_append_comma {text : List Char} (h : ',' ∉ text) (rest : List Char) :
    cutAtCommas (text ++ ',' :: rest) = text :: cutAtCommas rest := by
  induction text with
  | nil => simp [cutAtCommas]
  | cons c text ih =>
    obtain ⟨hc, htext⟩ := not_or.1 (mt List.mem_cons.2 h)
    rw [List.cons_append, cutAtCommas, if_neg (Ne.symm hc), ih htext]

theorem argumentsOf_close (inner : List Char) :
    argumentsOf (inner ++ [')']) = (cutAtCommas inner).mapM fun arg => literalOf (arg.dropWhile (· = ' ')) := by
  simp [argumentsOf, beforeClose]

theorem argumentsOf_one {wText : List Char} {w : Nat} (hw : literalOf wText = some w) :
    argumentsOf (wText ++ [')']) = some [w] := by
  rw [argumentsOf_close, cutAtCommas_of_no_comma (comma_not_mem_of_literalOf hw)]
  simp [dropWhile_space_of_literalOf hw, hw]

theorem comma_not_mem_after_spaces {text : List Char} {n : Nat} (h : literalOf text = some n) (gap : Nat) :
    ',' ∉ List.replicate gap ' ' ++ text := by
  simp [comma_not_mem_of_literalOf h]

theorem argumentsOf_three {iText sText mText : List Char} {i s m : Nat} (hi : literalOf iText = some i)
    (hs : literalOf sText = some s) (hm : literalOf mText = some m) (gap gap' : Nat) :
    argumentsOf (iText ++ ',' :: (List.replicate gap ' ' ++ sText ++ ',' :: (List.replicate gap' ' ' ++ mText)) ++ [')']) =
      some [i, s, m] := by
  rw [argumentsOf_close, cutAtCommas_append_comma (comma_not_mem_of_literalOf hi),
    cutAtCommas_append_comma (comma_not_mem_after_spaces hs gap), cutAtCommas_of_no_comma (comma_not_mem_after_spaces hm gap')]
  simp only [List.mapM_cons, List.mapM_nil, dropWhile_space_of_literalOf hi, hi,
    literalOf_after_spaces hs gap, literalOf_after_spaces hm gap']
  rfl

/-! ### Calls -/

@[simp] theorem afterFront_append (front text : List Char) : afterFront front (front ++ text) = some text := by
  induction front with
  | nil => rfl
  | cons c front ih => rw [List.cons_append, afterFront, if_pos rfl, ih]

/-- 30_encoding.md R43: what may stand before a call, and the copy it names. -/
def targetFronts : List (List Char × Option InstanceId) := [([], none), (nativeFront, some .native), (hashFront, some .hash)]

/-- A first word names its copy and is no part of the call. -/
theorem targetOf_front {front : List Char} {inst : Option InstanceId}
    (hfront : (front, inst) ∈ targetFronts) {text : List Char}
    (hnone : targetOf text = (none, text)) : targetOf (front ++ text) = (inst, text) := by
  simp only [targetFronts, List.mem_cons, Prod.mk.injEq, List.not_mem_nil, or_false] at hfront
  obtain ⟨rfl, rfl⟩ | ⟨rfl, rfl⟩ | ⟨rfl, rfl⟩ := hfront
  · exact hnone
  · rw [targetOf, afterFront_append]
  · have hnative : afterFront nativeFront (hashFront ++ text) = none := rfl
    rw [targetOf, hnative, afterFront_append]

/-- 30_encoding.md R43: the assembler reads the call, whatever copy is named before it, and then checks its literals. -/
theorem assemble_of_callOf {front : List Char} {inst : Option InstanceId}
    (hfront : (front, inst) ∈ targetFronts) {text : List Char}
    (hnone : targetOf text = (none, text)) {i : Instr} (hcall : callOf text = some i) :
    assemble idxW (front ++ text) = if WellFormed idxW i then some (inst, i) else none := by
  rw [assemble, targetOf_front hfront hnone, hcall]

theorem callOf_derive {wText : List Char} {w : Nat} (hw : literalOf wText = some w) :
    callOf (deriveFront ++ (wText ++ [')'])) = some (.derive w) := by
  rw [callOf, afterFront_append]
  dsimp only
  rw [argumentsOf_one hw]

theorem callOf_resolve {rest : List Char} {i s m : Nat} (hargs : argumentsOf rest = some [i, s, m]) :
    callOf (resolveFront ++ rest) = some (.resolve s m i) := by
  have hderive : afterFront deriveFront (resolveFront ++ rest) = none := rfl
  rw [callOf, hderive, afterFront_append]
  dsimp only
  rw [hargs]

section Assemble

variable {front : List Char} {inst : Option InstanceId}

theorem assemble_derive (hfront : (front, inst) ∈ targetFronts)
    {wText : List Char} {w : Nat} (hw : literalOf wText = some w) :
    assemble idxW (front ++ (deriveFront ++ wText ++ [')'])) =
      if WellFormed idxW (.derive w) then some (inst, .derive w) else none := by
  rw [List.append_assoc deriveFront]
  exact assemble_of_callOf hfront rfl (callOf_derive hw)

theorem assemble_resolve (hfront : (front, inst) ∈ targetFronts)
    {iText sText mText : List Char} {i s m : Nat} (hi : literalOf iText = some i) (hs : literalOf sText = some s)
    (hm : literalOf mText = some m) (gap gap' : Nat) :
    assemble idxW (front ++ (resolveFront ++ iText ++ [','] ++ List.replicate gap ' ' ++ sText ++ [','] ++
        List.replicate gap' ' ' ++ mText ++ [')'])) =
      if WellFormed idxW (.resolve s m i) then some (inst, .resolve s m i) else none := by
  have hargs := argumentsOf_three hi hs hm gap gap'
  simp only [List.append_assoc, List.cons_append, List.nil_append] at hargs ⊢
  exact assemble_of_callOf hfront rfl (callOf_resolve hargs)

end Assemble

theorem wellFormed_of_assemble {text : List Char} {inst : Option InstanceId} {i : Instr}
    (h : assemble idxW text = some (inst, i)) : WellFormed idxW i = true := by
  rw [assemble] at h
  split at h
  next => cases h
  next =>
    obtain ⟨hfit, heq⟩ := Option.ite_none_right_eq_some.1 h
    obtain ⟨-, rfl⟩ := Prod.mk.inj (Option.some.inj heq)
    exact hfit

/-- 30_encoding.md R44: the printed form of an instruction that fits is assembled to it. -/
theorem assemble_callText {i : Instr} (hfit : WellFormed idxW i = true) : assemble idxW (callText i) = some (none, i) := by
  cases i with
  | derive w => exact (assemble_derive (front := []) List.mem_cons_self (literalOf_decimalText w)).trans (if_pos hfit)
  | resolve s m i =>
    have hprinted := assemble_resolve (idxW := idxW) (front := []) (inst := none) List.mem_cons_self (literalOf_hexText i)
      (literalOf_decimalText s) (literalOf_hexText m) 1 1
    rw [if_pos hfit] at hprinted
    simpa [callText] using hprinted

theorem disassemble_of_legal {req : Vec idxW} {i : Instr} (h : decode req = .legal i) : disassemble req = callText i := by
  rw [disassemble, h]

theorem disassemble_of_illegal {req : Vec idxW} {why : IllegalForm} (h : decode req = .illegal why) :
    disassemble req = illegalFront ++ hexText req.toNat := by
  rw [disassemble, h]

/-! ### Results -/

theorem resultText_okDerive {shift : Shift} (mask : BitVec idxW) (wordWidth : Nat) :
    resultText (.legal (.derive wordWidth)) (okDerive shift mask) =
      some (okFront ++ decimalText shift.toNat ++ [',', ' '] ++ decimalText mask.toNat ++ [')']) := by
  have hshift : (shift.setWidth 16).toNat = shift.toNat := BitVec.toNat_setWidth_of_le (by decide)
  simp only [resultText, unpackFields_okDerive, statusOf_statusCode, (extractLsb'_setWidth_shift shift).2, hshift, if_pos]

theorem resultText_okResolve (wordIndex bitOffset : BitVec idxW) (shift mask bitIndex : Nat) :
    resultText (.legal (.resolve shift mask bitIndex)) (okResolve wordIndex bitOffset) =
      some (okFront ++ decimalText wordIndex.toNat ++ [',', ' '] ++ decimalText bitOffset.toNat ++ [')']) := by
  simp only [resultText, unpackFields_okResolve, statusOf_statusCode, if_pos]

theorem resultText_unsupported (wordWidth : Nat) :
    resultText (.legal (.derive wordWidth)) (raiseStatus .unsupportedWordWidth : Vec idxW) = some unsupportedText := by
  simp only [resultText, unpackFields_raiseStatus, statusOf_statusCode, if_pos]

theorem resultText_illegal (why : IllegalForm) :
    resultText (.illegal why) (raiseStatus .illegalRequest : Vec idxW) = some illegalText := by
  simp only [resultText, unpackFields_raiseStatus, statusOf_statusCode, if_pos]

/-! ### The statements about text -/

/-- Settles O47: a printed call is read back literal by literal, and its instruction is encoded to the request. -/
theorem disassemblyRoundTrip : Obligations.DisassemblyRoundTrip := by
  refine fun idxW req => ⟨fun i hdecode => ?_, fun w => disassemble_of_legal, fun s m i => disassemble_of_legal,
    fun why => disassemble_of_illegal⟩
  obtain ⟨hfit, hencode⟩ := decode_eq_legal hdecode
  rw [disassemble_of_legal hdecode]
  exact ⟨assemble_callText hfit, hencode⟩

/-- Settles O48: numerals are read back, a call is its literals, and the range check comes last. -/
theorem assemblerChecksRanges : Obligations.AssemblerChecksRanges :=
  ⟨fun n => ⟨literalOf_decimalText n, literalOf_hexText n, literalOf_hexText_toLower n⟩,
    fun _ _ _ hfront => ⟨fun _ _ => assemble_derive hfront,
      fun _ _ _ gap gap' _ _ _ hi hs hm => assemble_resolve hfront hi hs hm gap gap'⟩,
    fun _ _ _ _ => wellFormed_of_assemble⟩

/-- Settles O49: each decoded request has one form of answer, and each form its text. -/
theorem resultTextOfEveryAnswer : Obligations.ResultTextOfEveryAnswer := by
  intro idxW table req hwf
  cases hdecode : decode req with
  | illegal why => rw [respond_of_illegal hdecode, resultText_illegal]
  | legal i =>
    cases i with
    | derive wordWidth =>
      dsimp only
      cases hkey : lookupTable table (BitVec.ofNat 16 wordWidth) with
      | none => rw [respond_derive_of_not_key hdecode hkey, resultText_unsupported]
      | some shift =>
        rw [respond_derive_of_key hdecode hkey, resultText_okDerive, toNat_maskOfShift (lookupTable_wf hwf hkey).2]
    | resolve shift mask bitIndex =>
      obtain ⟨wordIndex, bitOffset, hrsp, hword, hoffset⟩ := respond_resolve (table := table) hdecode
      rw [hrsp, resultText_okResolve, hword, hoffset]

end Sys2Proof.Machine

/-!
The statements of 40_derive.md. First the mask at the two ends of its range and what a request with op = 00 is answered
(R45, R46), then NATIVE_TABLE's entries (R50).
-/

namespace Sys2Proof.Machine

variable {idxW : Nat} {table : Table}

/-! ### The mask at s = 0 and s = IDX_W -/

theorem maskOfShift_eq_zero {shift : Shift} (h : shift.toNat = 0) : maskOfShift idxW shift = 0 := by
  rw [maskOfShift_eq_ofNat (by omega), h]
  rfl

theorem maskOfShift_eq_ones {shift : Shift} (h : shift.toNat = idxW) : maskOfShift idxW shift = ones idxW := by
  apply BitVec.eq_of_toNat_eq
  rw [toNat_maskOfShift h.le, h, ones, BitVec.toNat_allOnes]

/-! ### The answer to a request with op = 00 -/

/-- 30_encoding.md R38(b), 40_derive.md R45: the reserved fields are checked before the lookup. -/
theorem respond_deriveRequest (table : Table) (wordWidth : WordWidth) (b c : BitVec idxW) :
    respond table (packFields ⟨opDerive, wordWidth, b, c⟩) =
      if b ≠ 0 ∨ c ≠ 0 then raiseStatus .illegalRequest else deriveResponse table wordWidth := by
  split
  next hreserved =>
    have hdecode : decode (packFields ⟨opDerive, wordWidth, b, c⟩) = .illegal .deriveReservedNonzero := by
      rw [decode_packFields, decodeFields, if_pos rfl, if_neg (by tauto)]
    exact respond_of_illegal hdecode
  next hzero =>
    obtain ⟨rfl, rfl⟩ : b = 0 ∧ c = 0 := by tauto
    rw [respond_of_legal (decode_deriveRequest wordWidth), answerInstr, wordWidthOperand, BitVec.ofNat_toNat,
      BitVec.setWidth_eq]

theorem respond_deriveRequest_zero (table : Table) (wordWidth : WordWidth) :
    (respond table (packFields ⟨opDerive, wordWidth, 0, 0⟩) : Vec idxW) = deriveResponse table wordWidth := by
  rw [respond_deriveRequest, if_neg (by simp)]

theorem respond_encode_derive (table : Table) (wordWidth : Nat) :
    respond table (encode idxW (.derive wordWidth)) = deriveResponse table (BitVec.ofNat 16 wordWidth) :=
  respond_deriveRequest_zero table _

/-- 40_derive.md R45: DERIVE of a key returns its mask in field B. -/
theorem deriveResponse_b_of_key {wordWidth : WordWidth} {shift : Shift} (hkey : lookupTable table wordWidth = some shift) :
    (unpackFields (deriveResponse table wordWidth : Vec idxW)).b = maskOfShift idxW shift := by
  rw [deriveResponse_eq_okDerive_iff.2 ⟨hkey, rfl⟩, unpackFields_okDerive]

/-! ### NATIVE_TABLE -/

/-- 40_derive.md R50: the period of each entry is its key. -/
theorem period_of_nativeTable {width : WordWidth} {shift : Shift} (hkey : lookupTable nativeTable width = some shift) :
    period shift = width.toNat := by
  obtain ⟨hwidth, hshift⟩ | ⟨hwidth, hshift⟩ | ⟨hwidth, hshift⟩ | ⟨hwidth, hshift⟩ | ⟨hwidth, hshift⟩ :=
    mem_nativeTable_iff.1 (lookupTable_nativeTable_iff.1 hkey) <;>
  rw [period, hwidth, hshift] <;> rfl

/-- 00_scope.md R6: the keys are 2^3 to 2^7, each mapped to its exponent. -/
theorem lookupTable_nativeTable_two_pow {k : Nat} (hlow : 3 ≤ k) (hhigh : k ≤ 7) :
    lookupTable nativeTable (BitVec.ofNat 16 (2 ^ k)) = some (BitVec.ofNat 8 k) := by
  interval_cases k <;> rfl

/-- 60_exceptions.md R62: every width outside the five entries is no key. -/
theorem lookupTable_nativeTable_eq_none_iff {width : WordWidth} :
    lookupTable nativeTable width = none ↔ width.toNat ∉ [8, 16, 32, 64, 128] := by
  have hkeys : (∃ shift, lookupTable nativeTable width = some shift) ↔ width.toNat ∈ [8, 16, 32, 64, 128] := by
    simp only [lookupTable_nativeTable_iff]
    simp only [nativeTable, List.mem_cons, Prod.mk.injEq, Option.some.injEq, List.not_mem_nil, or_false, exists_or,
      exists_and_left, exists_eq, and_true]
    simp [← BitVec.toNat_inj]
  rw [← hkeys, ← Option.isSome_iff_exists, Option.not_isSome_iff_eq_none]

/-! ### The statements -/

/-- Settles O7: the answer is the illegal one, or the lookup's; the corner cases are lookups, and the example is an encoding
and the answer to it. -/
theorem deriveRequestAnswer : Obligations.DeriveRequestAnswer := by
  have hexample : encode 64 (.derive 64) = 0x100 := BitVec.eq_of_toNat_eq (toNat_packFields _)
  refine ⟨fun idxW table hwf => ⟨fun wordWidth b c => ?_, fun wordWidth shift hkey => ?_⟩, fun wordWidth hmem => ?_,
    hexample, ?_⟩
  · rw [← opDerive, respond_deriveRequest]
    refine if_congr Iff.rfl rfl ?_
    cases hkey : lookupTable table wordWidth with
    | none => exact deriveResponse_of_not_key hkey
    | some shift => exact deriveResponse_of_key hwf hkey
  · rw [← opDerive, respond_deriveRequest_zero, deriveResponse_b_of_key hkey]
    exact ⟨maskOfShift_eq_zero, maskOfShift_eq_ones⟩
  · have hcorner : ∀ wordWidth ∈ [0, 17, 7, 255, 1, 2, 4, 256], (BitVec.ofNat 16 wordWidth).toNat ∉ [8, 16, 32, 64, 128] := by
      decide
    rw [respond_encode_derive, deriveResponse_of_not_key (lookupTable_nativeTable_eq_none_iff.2 (hcorner wordWidth hmem))]
    exact BitVec.eq_of_toNat_eq (toNat_packFields _)
  · have hkey : lookupTable nativeTable (BitVec.ofNat 16 64) = some 6 := rfl
    rw [← hexample, respond_encode_derive, deriveResponse_of_key (tableWf_nativeTable (by decide)) hkey]
    exact BitVec.eq_of_toNat_eq (toNat_packFields _)

/-- Settles O8: the two shifts leave the low bits, and they are the model's definition of the mask. -/
theorem maskIsLowShiftBits : Obligations.MaskIsLowShiftBits :=
  fun _ _ hshift => ⟨toNat_maskOfShift hshift, rfl⟩

/-- Settles O10: a derived mask is one less than the period, and NATIVE's periods are its keys. -/
theorem nativePeriodIsWordWidth : Obligations.NativePeriodIsWordWidth := by
  refine fun c hwf => ⟨fun wordWidth shift mask hok => ?_, fun k hlow hhigh => ?_⟩
  · have hperiod : period shift = wordWidth.toNat := period_of_nativeTable (deriveResponse_eq_okDerive_iff.1 hok).1
    have hderived : Derived (tableOf c .native) shift mask := ⟨wordWidth, hok⟩
    exact ⟨hperiod, hperiod ▸ hderived.toNat_mask (tableWf_tableOf hwf .native)⟩
  · obtain ⟨hidx, -⟩ := configWf_iff.1 hwf
    have hshift : (BitVec.ofNat 8 k).toNat = k := by rw [BitVec.toNat_ofNat, Nat.mod_eq_of_lt (by omega)]
    refine deriveResponse_eq_okDerive_iff.2 ⟨lookupTable_nativeTable_two_pow hlow hhigh, ?_⟩
    rw [maskOfShift_eq_ofNat (by omega), hshift]

/-- Settles O11: a conforming HASH_TABLE maps 8 to 4, whose mask is 2^4 − 1. -/
theorem hashWidthEightGivesFour : Obligations.HashWidthEightGivesFour := by
  intro c hwf
  obtain ⟨hidx, -, htable, hkey⟩ := configWf_iff.1 hwf
  have hmask : maskOfShift c.idxW 4 = BitVec.ofNat c.idxW 15 := maskOfShift_eq_ofNat (Nat.le_trans (by decide) hidx)
  have hok : deriveResponse (tableOf c .hash) 8 = okDerive 4 (BitVec.ofNat c.idxW 15) :=
    deriveResponse_eq_okDerive_iff.2 ⟨hkey, hmask.symm⟩
  exact ⟨(respond_encode_derive _ 8).trans hok, ⟨8, hok⟩, rfl⟩

end Sys2Proof.Machine

/-!
The statements of 41_resolve.md. First the answer to a request with op = 01 (R52 to R54).
-/

namespace Sys2Proof.Machine

variable {idxW : Nat} {table : Table} {shift : Shift} {mask : BitVec idxW}

/-! ### The answer to a request with op = 01 -/

/-- 30_encoding.md R38(c), 41_resolve.md R52: the reserved byte of A decides, and its low byte is the shift. -/
theorem respond_opResolve (table : Table) (a : BitVec 16) (mask bitIndex : BitVec idxW) :
    respond table (packFields ⟨0b01#2, a, mask, bitIndex⟩) =
      if a.extractLsb' 8 8 ≠ 0 then raiseStatus .illegalRequest
      else resolveResponse (a.extractLsb' 0 8) mask bitIndex := by
  split
  next hreserved =>
    exact respond_of_illegal ((decode_opResolve a mask bitIndex).trans (if_neg hreserved))
  next hzero =>
    have hanswer := respond_resolveRequest table (a.extractLsb' 0 8) mask bitIndex
    rwa [setWidth_low_byte (not_not.1 hzero)] at hanswer

/-! ### The largest bit index -/

/-- A derived shift is an entry of its TABLE, so 00_scope.md R8(b) bounds it. -/
theorem Derived.shift_le (h : Derived table shift mask) (hwf : tableWf idxW table = true) : shift.toNat ≤ idxW := by
  obtain ⟨⟨width, hkey⟩, -⟩ := derived_iff.1 h
  exact (lookupTable_wf hwf hkey).2

/-- 10_state.md R21, 41_resolve.md R54: 2^(IDX_W − s) periods fill the index range. -/
theorem toNat_resolvedWordIndex_ones (table : Table) (mask : BitVec idxW) (hle : shift.toNat ≤ idxW) :
    (resolvedWordIndex table shift mask (ones idxW)).toNat = 2 ^ (idxW - shift.toNat) - 1 := by
  have hsplit : 2 ^ shift.toNat * 2 ^ (idxW - shift.toNat) = 2 ^ idxW := by
    rw [← Nat.pow_add, Nat.add_sub_cancel' hle]
  rw [toNat_resolvedWordIndex, ones, BitVec.toNat_allOnes, period, ← hsplit,
    Nat.mul_sub_div 0 _ _ (hsplit ▸ Nat.two_pow_pos _), Nat.zero_div]

/-- 41_resolve.md R54: under the largest bit index the AND leaves the mask. -/
theorem resolvedBitOffset_ones (table : Table) (shift : Shift) (mask : BitVec idxW) :
    resolvedBitOffset table shift mask (ones idxW) = mask := by
  rw [resolvedBitOffset_eq, ones, BitVec.allOnes_and]

/-- Settles O15: the answer is the illegal one, or the shift and the AND; the corner cases are their values at 0 and at the
largest index, and the example is an encoding and the answer to it. -/
theorem resolveRequestAnswer : Obligations.ResolveRequestAnswer := by
  have hexample : encode 64 (.resolve 6 63 130) = 0x20800000000000000FC0019 := BitVec.eq_of_toNat_eq (toNat_packFields _)
  refine ⟨fun idxW table a mask bitIndex => ⟨respond_opResolve table a mask bitIndex, ?_, BitVec.ushiftRight_eq_zero⟩,
    fun idxW table shift mask bitIndex => ⟨?_, ?_, ?_, ?_⟩, fun c hwf inst shift mask hderived => ⟨?_, ?_⟩,
    hexample, ?_, ?_, ?_⟩
  · rw [BitVec.toNat_ushiftRight, Nat.shiftRight_eq_div_pow]
  · rw [resolvedWordIndex_eq, BitVec.ofNat_eq_ofNat, BitVec.zero_ushiftRight]
  · rw [resolvedBitOffset_eq, BitVec.ofNat_eq_ofNat, BitVec.zero_and]
  · exact (resolvedWordIndex_eq _ _ _ _).trans (BitVec.ushiftRight_zero _)
  · rw [resolvedBitOffset_eq, BitVec.ofNat_eq_ofNat, BitVec.and_zero]
  · exact toNat_resolvedWordIndex_ones _ mask (hderived.shift_le (tableWf_tableOf hwf inst))
  · rw [resolvedBitOffset_ones, hderived.toNat_mask (tableWf_tableOf hwf inst), period]
  · rw [← hexample, encode_resolve_of_fit (by decide), respond_opResolve, if_neg (by decide)]
    exact BitVec.eq_of_toNat_eq (toNat_packFields _)
  · rw [resolvedWordIndex_eq]
    rfl
  · rw [resolvedBitOffset_eq]
    rfl

end Sys2Proof.Machine

/-! Next, the laws of derived pairs (41_resolve.md R56 to R59): all follow from division and modulo by the period. -/

namespace Sys2Proof.Machine

variable {idxW : Nat} {table : Table} {shift : Shift} {mask : BitVec idxW}

theorem period_pos (shift : Shift) : 0 < period shift := Nat.two_pow_pos _

/-! ### Derived pairs of NATIVE -/

/-- 40_derive.md R50: a pair that NATIVE derived from a width is a derived pair whose period is that width. -/
theorem derived_and_period_of_native {wordWidth : WordWidth}
    (hok : deriveResponse nativeTable wordWidth = okDerive shift mask) :
    Derived nativeTable shift mask ∧ period shift = wordWidth.toNat :=
  ⟨⟨wordWidth, hok⟩, period_of_nativeTable (deriveResponse_eq_okDerive_iff.1 hok).1⟩

/-! ### The laws of one pair -/

/-- 41_resolve.md R59. -/
theorem Derived.divMod (h : Derived table shift mask) (hwf : tableWf idxW table = true) (bitIndex : BitVec idxW) :
    (resolvedWordIndex table shift mask bitIndex).toNat = bitIndex.toNat / period shift ∧
      (resolvedBitOffset table shift mask bitIndex).toNat = bitIndex.toNat % period shift :=
  ⟨toNat_resolvedWordIndex table shift mask bitIndex, h.toNat_resolvedBitOffset hwf bitIndex⟩

/-- 41_resolve.md R56. -/
theorem Derived.roundTrip (h : Derived table shift mask) (hwf : tableWf idxW table = true) (bitIndex : BitVec idxW) :
    (resolvedWordIndex table shift mask bitIndex).toNat * period shift +
      (resolvedBitOffset table shift mask bitIndex).toNat = bitIndex.toNat := by
  obtain ⟨hword, hoffset⟩ := h.divMod hwf bitIndex
  rw [hword, hoffset, Nat.div_add_mod']

/-- 41_resolve.md R57. -/
theorem Derived.resolvedBitOffset_lt (h : Derived table shift mask) (hwf : tableWf idxW table = true)
    (bitIndex : BitVec idxW) : (resolvedBitOffset table shift mask bitIndex).toNat < period shift := by
  rw [h.toNat_resolvedBitOffset hwf]
  exact Nat.mod_lt _ (period_pos shift)

/-- 41_resolve.md R58: the word index is non-decreasing, whatever the pair. -/
theorem resolvedWordIndex_mono (table : Table) (shift : Shift) (mask : BitVec idxW) {i j : BitVec idxW}
    (hij : i.toNat ≤ j.toNat) :
    (resolvedWordIndex table shift mask i).toNat ≤ (resolvedWordIndex table shift mask j).toNat := by
  rw [toNat_resolvedWordIndex, toNat_resolvedWordIndex]
  exact Nat.div_le_div_right hij

theorem toNat_le_toNat_ones (i : BitVec idxW) : i.toNat ≤ (ones idxW).toNat := by
  rw [ones, BitVec.toNat_allOnes]
  exact Nat.le_sub_one_of_lt i.isLt

/-- 41_resolve.md R58: each word index up to the last is that of its own first bit. -/
theorem exists_resolvedWordIndex_eq (table : Table) (shift : Shift) (mask : BitVec idxW) {n : Nat}
    (hn : n ≤ (resolvedWordIndex table shift mask (ones idxW)).toNat) :
    ∃ i : BitVec idxW, (resolvedWordIndex table shift mask i).toNat = n := by
  rw [toNat_resolvedWordIndex] at hn
  have hfirst : n * period shift < 2 ^ idxW :=
    ((Nat.le_div_iff_mul_le (period_pos shift)).1 hn).trans_lt (ones idxW).isLt
  refine ⟨BitVec.ofNat idxW (n * period shift), ?_⟩
  rw [toNat_resolvedWordIndex, BitVec.toNat_ofNat, Nat.mod_eq_of_lt hfirst, Nat.mul_div_cancel _ (period_pos shift)]

/-- 41_resolve.md R58: one period further on is the same bit of the next word. -/
theorem Derived.add_period (h : Derived table shift mask) (hwf : tableWf idxW table = true) {k : Nat}
    (hk : k + period shift ≤ 2 ^ idxW - 1) :
    (resolvedWordIndex table shift mask (BitVec.ofNat idxW (k + period shift))).toNat =
        (resolvedWordIndex table shift mask (BitVec.ofNat idxW k)).toNat + 1 ∧
      resolvedBitOffset table shift mask (BitVec.ofNat idxW (k + period shift)) =
        resolvedBitOffset table shift mask (BitVec.ofNat idxW k) := by
  have hfit : k + period shift < 2 ^ idxW := Nat.lt_of_le_sub_one (Nat.two_pow_pos idxW) hk
  have hthere : (BitVec.ofNat idxW (k + period shift)).toNat = k + period shift := Nat.mod_eq_of_lt hfit
  have hhere : (BitVec.ofNat idxW k).toNat = k := Nat.mod_eq_of_lt ((Nat.le_add_right _ _).trans_lt hfit)
  constructor
  · rw [toNat_resolvedWordIndex, toNat_resolvedWordIndex, hthere, hhere, Nat.add_div_right _ (period_pos shift)]
  · apply BitVec.eq_of_toNat_eq
    rw [h.toNat_resolvedBitOffset hwf, h.toNat_resolvedBitOffset hwf, hthere, hhere, Nat.add_mod_right]

/-! ### The statements over derived pairs -/

/-- Settles O23: a shift is a division and a derived mask a remainder, and NATIVE's periods are its word widths. -/
theorem resolveIsDivMod : Obligations.ResolveIsDivMod := by
  refine fun c hwf => ⟨fun inst shift mask bitIndex hderived => hderived.divMod (tableWf_tableOf hwf inst) bitIndex,
    fun wordWidth shift mask bitIndex hok => ?_⟩
  obtain ⟨hderived, hperiod⟩ := derived_and_period_of_native hok
  rw [← hperiod]
  exact hderived.divMod (tableWf_tableOf hwf .native) bitIndex

/-- Settles O20: quotient and remainder make up the bit index. -/
theorem resolveRoundTrip : Obligations.ResolveRoundTrip := by
  refine fun c hwf => ⟨fun inst shift mask bitIndex hderived => hderived.roundTrip (tableWf_tableOf hwf inst) bitIndex,
    fun wordWidth shift mask bitIndex hok => ?_⟩
  obtain ⟨hderived, hperiod⟩ := derived_and_period_of_native hok
  rw [← hperiod]
  exact hderived.roundTrip (tableWf_tableOf hwf .native) bitIndex

/-- Settles O21: a remainder is below the period, the last word index is that of the largest bit index, and HASH's remainder
by 16 of a bit index below 16 is that bit index. -/
theorem resolveResultRanges : Obligations.ResolveResultRanges := by
  refine fun c hwf => ⟨fun inst shift mask bitIndex hderived => ?_, fun wordWidth shift mask bitIndex hok => ?_, fun k => ?_⟩
  · have htable := tableWf_tableOf hwf inst
    refine ⟨hderived.resolvedBitOffset_lt htable bitIndex, ?_⟩
    rw [← toNat_resolvedWordIndex_ones (tableOf c inst) mask (hderived.shift_le htable)]
    exact resolvedWordIndex_mono _ _ _ (toNat_le_toNat_ones bitIndex)
  · obtain ⟨hderived, hperiod⟩ := derived_and_period_of_native hok
    rw [← hperiod]
    exact hderived.resolvedBitOffset_lt (tableWf_tableOf hwf .native) bitIndex
  · have htable := tableWf_tableOf hwf .hash
    obtain ⟨-, hderived, hperiod⟩ := hashWidthEightGivesFour c hwf
    constructor
    · intro hk
      have hfit : k < 2 ^ c.idxW :=
        hk.trans_le (Nat.pow_le_pow_right (by decide) (hderived.shift_le htable) : 2 ^ 4 ≤ 2 ^ c.idxW)
      refine ⟨BitVec.ofNat c.idxW k, ?_⟩
      rw [hderived.toNat_resolvedBitOffset htable, hperiod, BitVec.toNat_ofNat, Nat.mod_eq_of_lt hfit, Nat.mod_eq_of_lt hk]
    · rintro ⟨bitIndex, rfl⟩
      exact hperiod ▸ hderived.resolvedBitOffset_lt htable bitIndex

/-- Settles O22: quotient and remainder after a step of one period, and the first bit of each word. -/
theorem resolveMonotonic : Obligations.ResolveMonotonic := by
  intro c hwf inst shift mask hderived
  exact ⟨fun k hk => hderived.add_period (tableWf_tableOf hwf inst) hk, fun i j hij => resolvedWordIndex_mono _ _ _ hij,
    fun n hn => exists_resolvedWordIndex_eq _ _ _ hn⟩

end Sys2Proof.Machine

/-! Last, the pairs of a host that keeps its duties (70_reset_and_hazards.md R74, R76) are derived pairs. -/

namespace Sys2Proof.Machine

variable {idxW : Nat} {table : Table} {latency : Nat} {cycles : List (CycleRecord idxW)}

/-! ### What the host received and what it presented -/

/-- 40_derive.md R45: in a record whose outputs are right, an OK answer to a DERIVE is what the TABLE gives. -/
theorem derived_of_answersDerive (htrace : traceOk table latency cycles) {shift : Shift} {mask : BitVec idxW} {k : Nat}
    (h : answersDerive latency shift mask (cycles.drop k) = true) : Derived table shift mask := by
  cases hdrop : cycles.drop k with
  | nil => simp [hdrop, answersDerive] at h
  | cons e older =>
    rw [hdrop] at h
    obtain ⟨req, wordWidth, hreq, hdecode, hrsp⟩ := answersDerive_cons h
    have he : cycles[k]? = some e := by rw [← List.head?_drop, hdrop, List.head?_cons]
    have hanswer := rsp_eq_respond htrace he (hdrop ▸ hreq) hrsp
    rw [respond_of_legal hdecode] at hanswer
    exact ⟨wordWidthOperand wordWidth, hanswer.symm⟩

/-- What the host had received it still has received after further cycles. -/
theorem receivedPair_of_suffix {start : List (CycleRecord idxW)} (hstart : start <:+ cycles) {shift : Shift}
    {mask : BitVec idxW} (h : receivedPair latency shift mask start = true) :
    receivedPair latency shift mask cycles = true := by
  obtain ⟨newer, rfl⟩ := hstart
  obtain ⟨k, hk⟩ := receivedPair_iff.1 h
  exact receivedPair_iff.2 ⟨newer.length + k, by rwa [List.drop_length_add_append]⟩

/-- 70_reset_and_hazards.md R74, R76: a host that keeps its duties presents derived pairs only. -/
theorem derived_of_hostObeys (htrace : traceOk table latency cycles) (hobeys : hostObeys latency cycles = true)
    {e : CycleRecord idxW} (he : e ∈ cycles) {shift : Shift} {mask : BitVec idxW}
    (hpair : resolvePair e.port = some (shift, mask)) : Derived table shift mask := by
  have hstart := hostObeys_iff.1 hobeys e he shift mask hpair
  obtain ⟨k, hk⟩ := receivedPair_iff.1 (receivedPair_of_suffix (untilFirstResolve_suffix cycles) hstart)
  exact derived_of_answersDerive htrace hk

/-- 10_state.md R22: the request that an output answers was presented, valid, in a recorded cycle. -/
theorem exists_mem_of_answeredRequest {req : Vec idxW} (h : answeredRequest latency cycles = some req) :
    ∃ e ∈ cycles, e.port.reqValid = true ∧ e.port.req = req := by
  cases hget : cycles[latency]? with
  | none =>
    rw [answeredRequest_of_getElem?_none hget] at h
    cases h
  | some e =>
    rw [answeredRequest_of_getElem? hget] at h
    obtain ⟨hvalid, hreq⟩ := Option.ite_none_right_eq_some.1 h
    exact ⟨e, List.mem_of_getElem? hget, hvalid, Option.some.inj hreq⟩

/-! ### The laws for a decoded request -/

/-- 41_resolve.md R59, for the operands of a request: its answer is division and modulo by 2^shift if its pair is derived. -/
theorem respond_resolve_of_derived (hwf : tableWf idxW table = true) {req : Vec idxW} {shift mask bitIndex : Nat}
    (hdecode : decode req = .legal (.resolve shift mask bitIndex))
    (hderived : Derived table (shiftOperand shift) (indexOperand idxW mask)) :
    ∃ wordIndex bitOffset : BitVec idxW, respond table req = okResolve wordIndex bitOffset ∧
      wordIndex.toNat = bitIndex / 2 ^ shift ∧ bitOffset.toNat = bitIndex % 2 ^ shift := by
  obtain ⟨wordIndex, bitOffset, hrsp, hword, hoffset⟩ := respond_resolve (table := table) hdecode
  obtain ⟨hshift, hmask, -⟩ := wellFormed_resolve.1 (decode_eq_legal hdecode).1
  have hshiftOperand : (shiftOperand shift).toNat = shift := Nat.mod_eq_of_lt hshift
  have hmaskOperand : (indexOperand idxW mask).toNat = mask := Nat.mod_eq_of_lt hmask
  have hlow : mask = 2 ^ shift - 1 := by
    rw [← hmaskOperand, hderived.toNat_mask hwf, period, hshiftOperand]
  exact ⟨wordIndex, bitOffset, hrsp, hword, by rw [hoffset, hlow, Nat.and_two_pow_sub_one_eq_mod]⟩

/-- Settles O50: the answered request was presented with a pair the host had received, which the copy's TABLE derived, so its
answer is division and modulo. -/
theorem hostDisciplineGivesLaws : Obligations.HostDisciplineGivesLaws := by
  intro s inst hinv hobeys k e req rsp shift mask bitIndex he hrsp hreq hdecode
  have htrace := (blockOk_iff.1 (hinv.block_ok inst)).2
  obtain ⟨asked, hasked, hvalid, rfl⟩ := exists_mem_of_answeredRequest hreq
  have hderived := derived_of_hostObeys htrace hobeys (List.mem_of_mem_drop hasked) (resolvePair_of_resolve hvalid hdecode)
  obtain ⟨wordIndex, bitOffset, hanswer, hword, hoffset⟩ :=
    respond_resolve_of_derived (tableWf_tableOf hinv.1 inst) hdecode hderived
  obtain rfl := (rsp_eq_respond htrace he hreq hrsp).trans hanswer
  rw [unpackFields_okResolve]
  dsimp only
  rw [hword, hoffset]
  exact ⟨rfl, Nat.div_add_mod' _ _, Nat.mod_lt _ (Nat.two_pow_pos _), rfl, rfl⟩

end Sys2Proof.Machine

/-!
The statements of 60_exceptions.md. First which requests are illegal (30_encoding.md R38), on their fields alone.
-/

namespace Sys2Proof

variable {idxW : Nat}

/-! ### Illegal requests -/

/-- 30_encoding.md R35: an operation code is one of two that name an operation or one of two reserved ones. -/
theorem reservedOp_iff {code : BitVec 2} : code ≠ opDerive ∧ code ≠ opResolve ↔ code = 0b10#2 ∨ code = 0b11#2 := by
  revert code
  decide

/-- 30_encoding.md R38: the branches in which the decoder refuses are the cases (a), (b) and (c). -/
theorem decodeFields_illegal_iff {f : Fields idxW} :
    (∃ why, decodeFields f = .illegal why) ↔
      (f.code = 0b10#2 ∨ f.code = 0b11#2) ∨ (f.code = opDerive ∧ (f.b ≠ 0 ∨ f.c ≠ 0)) ∨
      (f.code = opResolve ∧ f.a.extractLsb' 8 8 ≠ 0) := by
  have hcodes : opDerive ≠ opResolve := by decide
  rw [← reservedOp_iff, decodeFields]
  split_ifs with hderive hzero hresolve hzero
  · exact iff_of_false nofun (by grind)
  · exact iff_of_true ⟨_, rfl⟩ (.inr (.inl ⟨hderive, by tauto⟩))
  · exact iff_of_false nofun (by grind)
  · exact iff_of_true ⟨_, rfl⟩ (.inr (.inr ⟨hresolve, hzero⟩))
  · exact iff_of_true ⟨_, rfl⟩ (.inl ⟨hderive, hresolve⟩)

end Sys2Proof

/-! Next, the status of the answer to each decoded request (R62 to R65). -/

namespace Sys2Proof.Machine

variable {idxW : Nat} {table : Table} {req : Vec idxW}

/-! ### The status of each answer -/

theorem statusBits_respond_of_illegal {why : IllegalForm} (hdecode : decode req = .illegal why) :
    statusBits (respond table req) = statusCode .illegalRequest := by
  rw [respond_of_illegal hdecode, statusBits_raiseStatus]

/-- 60_exceptions.md R62: the status of a legal DERIVE is decided by the lookup. -/
theorem statusBits_respond_of_derive {wordWidth : Nat} (hdecode : decode req = .legal (.derive wordWidth)) :
    statusBits (respond table req) =
      if lookupTable table (BitVec.ofNat 16 wordWidth) = none then statusCode .unsupportedWordWidth else statusCode .ok := by
  cases hkey : lookupTable table (BitVec.ofNat 16 wordWidth) with
  | none => rw [respond_derive_of_not_key hdecode hkey, statusBits_raiseStatus, if_pos rfl]
  | some shift => rw [respond_derive_of_key hdecode hkey, statusBits_okDerive, if_neg (Option.some_ne_none shift)]

theorem statusBits_respond_of_resolve {shift mask bitIndex : Nat} (hdecode : decode req = .legal (.resolve shift mask bitIndex)) :
    statusBits (respond table req) = statusCode .ok := by
  obtain ⟨wordIndex, bitOffset, hrsp, -⟩ := respond_resolve (table := table) hdecode
  rw [hrsp, statusBits_okResolve]

/-- 60_exceptions.md R62: each other request has another status. -/
theorem statusBits_respond_unsupported_iff :
    statusBits (respond table req) = statusCode .unsupportedWordWidth ↔
      ∃ wordWidth, decode req = .legal (.derive wordWidth) ∧ lookupTable table (BitVec.ofNat 16 wordWidth) = none := by
  constructor
  · intro hstatus
    cases hdecode : decode req with
    | illegal why => exact absurd ((statusBits_respond_of_illegal hdecode).symm.trans hstatus) (by decide)
    | legal i =>
      cases i with
      | derive wordWidth =>
        refine ⟨wordWidth, rfl, ?_⟩
        by_contra hkey
        rw [statusBits_respond_of_derive hdecode, if_neg hkey] at hstatus
        exact absurd hstatus (by decide)
      | resolve shift mask bitIndex => exact absurd ((statusBits_respond_of_resolve hdecode).symm.trans hstatus) (by decide)
  · rintro ⟨wordWidth, hdecode, hkey⟩
    rw [statusBits_respond_of_derive hdecode, if_pos hkey]

/-- 00_scope.md R8(a): a well-formed table has no key that is not a power of two. -/
theorem lookupTable_eq_none_of_not_two_pow (hwf : tableWf idxW table = true) {width : WordWidth}
    (h : ∀ k : Nat, width.toNat ≠ 2 ^ k) : lookupTable table width = none := by
  refine Option.eq_none_iff_forall_ne_some.2 fun shift hkey => ?_
  obtain ⟨k, hk⟩ := isPowerOfTwo_iff.1 (lookupTable_wf hwf hkey).1
  exact h k hk

/-- 60_exceptions.md R61: an UNSUPPORTED_WORD_WIDTH response is its status alone. -/
theorem raiseStatus_unsupportedWordWidth : (raiseStatus .unsupportedWordWidth : Vec idxW) = 1 := by
  apply BitVec.eq_of_toNat_eq
  have hone : (1 : Vec idxW).toNat = 1 := Nat.mod_eq_of_lt (Nat.one_lt_two_pow (by simp [reqW]))
  rw [toNat_raiseStatus, hone]
  rfl

/-! ### The statements -/

/-- Settles O5: the decoder refuses in the three cases only, and the answer to what it refuses is the status. -/
theorem illegalRequestsExactly : Obligations.IllegalRequestsExactly := by
  refine fun idxW table req => ⟨?_, fun ⟨why, hdecode⟩ => ?_⟩
  · have hreserved : req.extractLsb' 10 8 = (unpackFields req).a.extractLsb' 8 8 := (extractLsb'_bytes_of_a req).2
    rw [hreserved]
    exact decodeFields_illegal_iff
  · rw [respond_of_illegal hdecode, toNat_raiseStatus]
    rfl

/-- Settles O12: the status and the lookup decide each other, and the keys are NATIVE's five or powers of two. -/
theorem unsupportedWordWidthExactly : Obligations.UnsupportedWordWidthExactly := by
  refine fun c hwf => ⟨fun inst req => statusBits_respond_unsupported_iff, fun inst req hstatus => ?_,
    fun wordWidth => lookupTable_nativeTable_eq_none_iff,
    fun wordWidth => lookupTable_eq_none_of_not_two_pow (tableWf_tableOf hwf .hash)⟩
  obtain ⟨wordWidth, hdecode, hkey⟩ := statusBits_respond_unsupported_iff.1 hstatus
  rw [respond_derive_of_not_key hdecode hkey, raiseStatus_unsupportedWordWidth]

/-- Settles O25, along the decoder's answers. -/
theorem oneStatusInPriorityOrder : Obligations.OneStatusInPriorityOrder := by
  refine fun idxW table req => ⟨?_, statusBits_respond_ne_forbidden table req⟩
  cases hdecode : decode req with
  | illegal why => exact statusBits_respond_of_illegal hdecode
  | legal i =>
    cases i with
    | derive wordWidth => exact statusBits_respond_of_derive hdecode
    | resolve shift mask bitIndex => exact statusBits_respond_of_resolve hdecode

/-- Settles O17: the answer to a RESOLVE is OK, and does not read the table. -/
theorem resolveRaisesNoError : Obligations.ResolveRaisesNoError := by
  refine fun idxW table table' req shift mask bitIndex hdecode => ⟨statusBits_respond_of_resolve hdecode, ?_⟩
  rw [respond_of_legal hdecode, respond_of_legal hdecode, answerInstr, answerInstr]

end Sys2Proof.Machine

/-! The statement of 70_reset_and_hazards.md: what a reset edge leaves in the copy it reaches. -/

namespace Sys2Proof.Machine

variable {idxW : Nat}

/-- A rising edge with rst = 1 clears the pipeline, whatever is on the other input ports (70_reset_and_hazards.md R71). -/
theorem clockBlock_stages_of_rst (inst : InstanceId) {port : PortIn idxW} (answer : Vec idxW) (b : Block idxW)
    (h : port.rst = true) :
    (clockBlock inst port answer b).stages = clearStages inst (b.trace.length + 1) b.stages :=
  if_pos h

/-- Settles O34: the edge clears the stages, and the outputs recorded are read off the stages before it. -/
theorem resetEdgeClearsValidBits : Obligations.ResetEdgeClearsValidBits := by
  intro s cycle rest L hinv hinputs hlat hrst
  have hlen : (s.block cycle.inst).stages.length = L + 1 := (hinv.block_ok cycle.inst).length_stages.trans hlat
  refine ⟨_, step_of_inv hinv hinputs, (length_clockBlock_stages _ _ _ _).trans hlen, ?_, ?_⟩
  · rw [clockBlock_stages_of_rst cycle.inst _ _ hrst]
    exact clearStages_not_valid _ _ _
  · rw [clockBlock_trace, blockOut_of_length _ _ hlen]

end Sys2Proof.Machine
